-- ==== Sys2Proof/Word.lean ====
section
/-! DEFINITION. The cell value of the machine (00_scope.md section 5): a signed 64-bit integer, kept as the
64 bits of its two's complement form and read as a number by `BitVec.toInt`. A cell is one value; it is never
split into bytes (20_memory.md R36). -/

namespace Sys2Proof

/-- A cell value, also the width of `IP`, `RB`, `FAULT_INFO` and of a channel value (00_scope.md R5, XLEN = 64).
Its signed reading `toInt` ranges over `-2^63 .. 2^63 - 1`. -/
abbrev Word := BitVec 64

end Sys2Proof
end

