-- ==== Sys2Proof/Syntax.lean ====
section
/-! DEFINITION. The instruction set as syntax: the ten instructions of 30_encoding.md R52, the three parameter
modes of R54, the five formats of R53, and what `decode` answers (R55). An instruction here is what one
instruction word says: which operation, and the mode of each parameter it has. The parameters themselves are
memory cells, fetched when the instruction executes (40_execution_cycle.md R74). -/

namespace Sys2Proof

/-- Parameter mode (30_encoding.md R54): absolute address, literal, or address relative to `RB`. -/
inductive Mode where
  | position
  | immediate
  | relative
  deriving DecidableEq, Repr

/-- The ten opcodes by name (30_encoding.md R52). -/
inductive Opcode where
  | add
  | multiply
  | input
  | output
  | jumpIfTrue
  | jumpIfFalse
  | lessThan
  | equals
  | adjustRelativeBase
  | halt
  deriving DecidableEq, Repr

/-- Every opcode once, in the order of the document's list (30_encoding.md R52). -/
def Opcode.all : List Opcode :=
  [.add, .multiply, .input, .output, .jumpIfTrue, .jumpIfFalse, .lessThan, .equals, .adjustRelativeBase, .halt]

/-- The instruction formats (30_encoding.md R53): which parameters an instruction has and which it writes to. -/
inductive Format where
  | rrw
  | rr
  | r
  | w
  | z
  deriving DecidableEq, Repr

/-- One constructor per row of spec/opcode_table.json; each argument is the mode of that operand. -/
inductive Instr where
  | add (a b dst : Mode)
  | multiply (a b dst : Mode)
  | input (dst : Mode)
  | output (a : Mode)
  | jumpIfTrue (a b : Mode)
  | jumpIfFalse (a b : Mode)
  | lessThan (a b dst : Mode)
  | equals (a b dst : Mode)
  | adjustRelativeBase (a : Mode)
  | halt
  deriving DecidableEq, Repr

/-- The opcode of an instruction. -/
def Instr.opcode : Instr → Opcode
  | .add _ _ _ => .add
  | .multiply _ _ _ => .multiply
  | .input _ => .input
  | .output _ => .output
  | .jumpIfTrue _ _ => .jumpIfTrue
  | .jumpIfFalse _ _ => .jumpIfFalse
  | .lessThan _ _ _ => .lessThan
  | .equals _ _ _ => .equals
  | .adjustRelativeBase _ => .adjustRelativeBase
  | .halt => .halt

/-- The mode of the destination parameter, where the instruction has one (30_encoding.md R53, role "write"). -/
def Instr.destination : Instr → Option Mode
  | .add _ _ d => some d
  | .multiply _ _ d => some d
  | .input d => some d
  | .output _ => none
  | .jumpIfTrue _ _ => none
  | .jumpIfFalse _ _ => none
  | .lessThan _ _ d => some d
  | .equals _ _ d => some d
  | .adjustRelativeBase _ => none
  | .halt => none

/-- What `decode` returns (30_encoding.md R55): the opcode and all three modes, used or not. -/
structure Decoded where
  op : Opcode
  mode1 : Mode
  mode2 : Mode
  mode3 : Mode
  deriving DecidableEq, Repr

/-- Why a word does not decode. All four raise `MalformedProgram(w)` (60_exceptions.md R151). -/
inductive DecodeError where
  /-- `w < 0` (30_encoding.md R57). -/
  | negativeWord
  /-- `w mod 100` is not the number of an opcode (30_encoding.md R56). -/
  | unknownOpcode (number : Nat)
  /-- One of the three mode digits is 3 to 9 (30_encoding.md R58). -/
  | unknownMode
  /-- The destination parameter has mode Immediate (30_encoding.md R59). -/
  | immediateDestination
  deriving DecidableEq, Repr

end Sys2Proof
end

