-- ==== Sys2Proof/Config.lean ====
section
/-! DEFINITION. The implementation parameters of 00_scope.md R5. None is changed by an instruction. `MEMLEN` is
fixed by each reset and stands in State (`memLen`); `OPCODE_MAP`'s value is `opcodeMap` of Decode.lean. -/

namespace Sys2Proof

/-- `SLACK`'s default: the zero cells appended after the program at reset (00_scope.md R5, D2). An implementation
may take any number that is at least `Config.slackMin`, so every reset takes the slack as an argument and claims
quantify over it (log 2: DESIGN CHOICE of the default, unsafe for a claim that rests on exactly 1000). -/
def Config.slack : Nat := 1000

/-- The least slack of a conforming implementation (00_scope.md R5). -/
def Config.slackMin : Nat := 1000

/-- The bound `MEMLEN <= 2^62` (00_scope.md R5, D3; log 3). -/
def Config.memLenMax : Nat := 2 ^ 62

/-- `OPCODE_MAP` (00_scope.md R5, D1): which number stands for which opcode, as a table of rows. -/
abbrev OpcodeMap := List (Nat × Opcode)

/-- The two parameters of R5 that are open for an implementation (93_implementation_defined.md A12, A15). -/
structure Params where
  slack : Nat
  map : OpcodeMap
  deriving DecidableEq, Repr

end Sys2Proof
end

