-- ==== Sys2Proof/WellFormed.lean ====
section
/-! DEFINITION. Which instruction terms are instructions: a destination is never Immediate (30_encoding.md R59).
Every other choice of modes is legal (R61: 18 combinations for RRW, 27 for RR, R and Z with the unused digits,
18 for W). -/

namespace Sys2Proof

/-- The destination mode, where there is one, is Position or Relative (30_encoding.md R59). -/
def Instr.wf (i : Instr) : Bool :=
  i.destination != some .immediate

/-- `wf` as a proposition. -/
abbrev Instr.WellFormed (i : Instr) : Prop := i.wf = true

end Sys2Proof
end

