-- ==== Sys2Proof/Decode.lean ====
section
/-! DEFINITION. The decoder of 30_encoding.md R50 to R60, total on every cell value and rejecting by name, and the
encoder of R65 (`opcode + 100*A + 1000*B + 10000*C`), from the same tables. Fields of an instruction word are
decimal digits, not bits. -/

namespace Sys2Proof

/-! ### Tables -/

/-- The decimal digit of `w` at the `10^p` place (00_scope.md section 5). -/
def digit (w p : Nat) : Nat :=
  w / 10 ^ p % 10

/-- The value of `OPCODE_MAP` (30_encoding.md R52). 2, 4 and 99 are recovered from the document's examples; the
other seven are general knowledge (93_implementation_defined.md B1; log 1: PRESUMED, unsafe). -/
def opcodeMap : OpcodeMap :=
  [(1, .add), (2, .multiply), (3, .input), (4, .output), (5, .jumpIfTrue), (6, .jumpIfFalse), (7, .lessThan),
    (8, .equals), (9, .adjustRelativeBase), (99, .halt)]

/-- The opcode a number stands for, none for an unrecognized number (30_encoding.md R56). -/
def OpcodeMap.opcodeOf : OpcodeMap → Nat → Option Opcode
  | [], _ => none
  | (m, op) :: rest, n => if m = n then some op else OpcodeMap.opcodeOf rest n

/-- The number of an opcode (0, no opcode's number, where the table lacks it). -/
def OpcodeMap.numberOf : OpcodeMap → Opcode → Nat
  | [], _ => 0
  | (m, op) :: rest, o => if op = o then m else OpcodeMap.numberOf rest o

/-- A table an implementation could have: every opcode has a number of two decimal digits, and that number stands
for it. -/
def OpcodeMap.wf (map : OpcodeMap) : Bool :=
  Opcode.all.all fun op => decide (map.numberOf op < 100) && (map.opcodeOf (map.numberOf op) == some op)

/-- Parameters of a conforming implementation (00_scope.md R5). -/
def Params.wf (p : Params) : Bool :=
  decide (Config.slackMin ≤ p.slack) && p.map.wf

/-- The parameters with the values the spec gives them (00_scope.md R5): slack 1000, and the numbers of 30_encoding.md
R52. -/
def Params.standard : Params :=
  ⟨Config.slack, opcodeMap⟩

/-- The mode a digit stands for (30_encoding.md R54); 3 to 9 stand for none (R58). -/
def Mode.ofDigit : Nat → Option Mode
  | 0 => some .position
  | 1 => some .immediate
  | 2 => some .relative
  | _ => none

/-- The digit of a mode (30_encoding.md R54). -/
def Mode.digit : Mode → Nat
  | .position => 0
  | .immediate => 1
  | .relative => 2

/-- The format of each opcode (30_encoding.md R53). -/
def Opcode.format : Opcode → Format
  | .add => .rrw
  | .multiply => .rrw
  | .input => .w
  | .output => .r
  | .jumpIfTrue => .rr
  | .jumpIfFalse => .rr
  | .lessThan => .rrw
  | .equals => .rrw
  | .adjustRelativeBase => .r
  | .halt => .z

/-- The number of parameters of a format (30_encoding.md R53). -/
def Format.params : Format → Nat
  | .rrw => 3
  | .rr => 2
  | .r => 1
  | .w => 1
  | .z => 0

/-- The length in cells: the word and its parameters, a function of the opcode alone (30_encoding.md R53, R63). -/
def Opcode.length (op : Opcode) : Nat :=
  op.format.params + 1

/-- The mode digit of the destination parameter, where the format has one (30_encoding.md R53). -/
def Decoded.destination (d : Decoded) : Option Mode :=
  match d.op.format with
  | .rrw => some d.mode3
  | .w => some d.mode1
  | .rr => none
  | .r => none
  | .z => none

/-! ### The decoder -/

/-- `decode(w)` of 30_encoding.md R55: opcode and three modes, a function of the word alone. -/
def decodeFields (map : OpcodeMap) (w : Word) : Except DecodeError Decoded :=
  if w.toInt < 0 then .error .negativeWord
  else
    match map.opcodeOf (w.toNat % 100) with
    | none => .error (.unknownOpcode (w.toNat % 100))
    | some op =>
      match Mode.ofDigit (digit w.toNat 2), Mode.ofDigit (digit w.toNat 3), Mode.ofDigit (digit w.toNat 4) with
      | some a, some b, some c =>
        if Decoded.destination ⟨op, a, b, c⟩ = some .immediate then .error .immediateDestination
        else .ok ⟨op, a, b, c⟩
      | _, _, _ => .error .unknownMode

/-- The instruction of a decoded word; the modes of parameters it does not have select nothing (30_encoding.md
R58). -/
def Decoded.instr (d : Decoded) : Instr :=
  match d.op with
  | .add => .add d.mode1 d.mode2 d.mode3
  | .multiply => .multiply d.mode1 d.mode2 d.mode3
  | .input => .input d.mode1
  | .output => .output d.mode1
  | .jumpIfTrue => .jumpIfTrue d.mode1 d.mode2
  | .jumpIfFalse => .jumpIfFalse d.mode1 d.mode2
  | .lessThan => .lessThan d.mode1 d.mode2 d.mode3
  | .equals => .equals d.mode1 d.mode2 d.mode3
  | .adjustRelativeBase => .adjustRelativeBase d.mode1
  | .halt => .halt

/-- The decoder over any opcode map (00_scope.md R5: the map is a parameter). -/
def decodeWith (map : OpcodeMap) (w : Word) : Except DecodeError Instr :=
  match decodeFields map w with
  | .error e => .error e
  | .ok d => .ok d.instr

/-- The decoder of this machine: an instruction word to an instruction, or the reason it is malformed. -/
def decode (w : Word) : Except DecodeError Instr :=
  decodeWith opcodeMap w

/-! ### The encoder -/

/-- The three modes of an instruction; the assembler writes digit 0 for a parameter it does not have
(30_encoding.md R65). -/
def Instr.modes : Instr → Mode × Mode × Mode
  | .add a b c => (a, b, c)
  | .multiply a b c => (a, b, c)
  | .input a => (a, .position, .position)
  | .output a => (a, .position, .position)
  | .jumpIfTrue a b => (a, b, .position)
  | .jumpIfFalse a b => (a, b, .position)
  | .lessThan a b c => (a, b, c)
  | .equals a b c => (a, b, c)
  | .adjustRelativeBase a => (a, .position, .position)
  | .halt => (.position, .position, .position)

/-- An instruction word from its fields: `opcode + 100*A + 1000*B + 10000*C` (30_encoding.md R65). -/
def wordOf (opcode a b c : Nat) : Nat :=
  opcode + 100 * a + 1000 * b + 10000 * c

/-- The encoder over any opcode map. -/
def encodeWith (map : OpcodeMap) (i : Instr) : Word :=
  BitVec.ofNat 64 (wordOf (map.numberOf i.opcode) i.modes.1.digit i.modes.2.1.digit i.modes.2.2.digit)

/-- The instruction word of an instruction. -/
def encode (i : Instr) : Word :=
  encodeWith opcodeMap i

/-- All the cells of an instruction: its word, then its parameters as they stand (30_encoding.md R50, R62). -/
def encodeCells (i : Instr) (params : List Word) : List Word :=
  encode i :: params.take i.opcode.format.params

/-! ### The opcode table's words -/

/-- The cells a table row's number stands for: bit 0 is the least significant bit of the first cell, and bits past
`nbits` are 0. Four cells, the longest instruction (30_encoding.md R53). -/
def tableCells (nbits w : Nat) : List Word :=
  let v := w % 2 ^ nbits
  [BitVec.ofNat 64 v, BitVec.ofNat 64 (v / 2 ^ 64), BitVec.ofNat 64 (v / 2 ^ 128), BitVec.ofNat 64 (v / 2 ^ 192)]

/-- The instruction the decoder reads from a table word: its first cell is the instruction word. -/
def decodeTableWord (nbits w : Nat) : Option Instr :=
  match tableCells nbits w with
  | [] => none
  | v :: _ =>
    match decode v with
    | .error _ => none
    | .ok i => some i

end Sys2Proof
end

