-- ==== Sys2Proof/Machine/State.lean ====
section
/-! DEFINITION. The state of CORE (10_state.md section 1) and, beside it, the environment's state of its two
channels (10_state.md R20), which Input and Output read and write. Plain data throughout. -/

namespace Sys2Proof.Machine

/-- `STATUS` (10_state.md R16). Held at an Input is not a status value. -/
inductive Status where
  | running
  | halted
  | faulted
  deriving DecidableEq, Repr

/-- `CAUSE` (10_state.md R17). -/
inductive Cause where
  | none
  | halt
  | inputClosed
  | malformedProgram
  | outOfBoundsAccess
  | outputChannelClosed
  deriving DecidableEq, Repr

/-- The spec's three faults with their information (60_exceptions.md R151 to R153). A raised fault is entered as
R158 says and gives a next state with `STATUS = Faulted`; it is not an outcome `fault` of the host's interface. -/
inductive Raised where
  /-- The instruction word that failed to decode (R151). -/
  | malformedProgram (word : Word)
  /-- The exact index outside memory (R152; 40_execution_cycle.md R78). -/
  | outOfBoundsAccess (index : Int)
  /-- The value that could not be sent (R153). -/
  | outputChannelClosed (value : Word)
  deriving DecidableEq, Repr

/-- Reasons for the outcome `fault`: there are none. Every fault of the spec has an entry that the spec describes
(60_exceptions.md R158) and is taken as a next state, so no definition answers `fault` (log 15). -/
inductive Fault where
  deriving DecidableEq, Repr

/-- Reasons for the outcome `refused`. -/
inductive Refusal where
  /-- An arm of `exec` without a meaning would answer this, which is safe; no arm does. -/
  | notModelled (mnemonic : String)
  deriving DecidableEq, Repr

/-- The memory array: the cells whose value is not 0, as (index, value) with rising indices (log 4). A cell that is
not listed holds 0, as every cell does that neither the program nor a store has set (70_reset_and_hazards.md R190,
"every slack cell reads as 0"; log 5). -/
abbrev Memory := List (Nat × Word)

/-- The whole state. The last four fields are the environment's (10_state.md R20). -/
structure State where
  /-- `M` (10_state.md R11). -/
  mem : Memory
  /-- `MEMLEN`, the number of cells; only a reset changes it (00_scope.md R5, 10_state.md R11). -/
  memLen : Nat
  /-- `IP` (10_state.md R12), signed. -/
  ip : Word
  /-- `RB` (10_state.md R14), signed. -/
  rb : Word
  /-- `LAST_OUTPUT`; `none` is valid = 0 (10_state.md R15). -/
  lastOutput : Option Word
  /-- `STATUS` (10_state.md R16). -/
  status : Status
  /-- `CAUSE` (10_state.md R17). -/
  cause : Cause
  /-- `FAULT_INFO` (10_state.md R18), signed. -/
  faultInfo : Word
  /-- `InQ`, head first (42_io.md R100). -/
  inQ : List Word
  /-- `InClosed` (42_io.md R102). -/
  inClosed : Bool
  /-- `OutQ`, head first: sent and not yet taken by the host (42_io.md R103). -/
  outQ : List Word
  /-- `OutClosed`: no listener exists (42_io.md R104). -/
  outClosed : Bool
  deriving DecidableEq, Repr

/-- The machine right after `Reset` of the empty program (10_state.md R23, 70_reset_and_hazards.md R194) with the
default slack; a program enters by `State.load` (log 25). The spec gives the channels no value at reset (R193): here they
are empty, open and listened to (log 23: DESIGN CHOICE, unsafe). -/
def State.reset : State where
  mem := []
  memLen := Config.slack
  ip := 0
  rb := 0
  lastOutput := Option.none
  status := .running
  cause := .none
  faultInfo := 0
  inQ := []
  inClosed := false
  outQ := []
  outClosed := false

end Sys2Proof.Machine
end

