-- ==== Sys2Proof/Machine/Ops.lean ====
section
/-! DEFINITION. The named operations on the state: the wrap of arithmetic, the two memory primitives, the updates
an instruction may make, the two ways a run ends (halt and fault entry), and fetch and decode of one instruction.
What can raise a fault is an `Except Raised`; `State.finish` turns it into the next state, so a fault discards
everything else its step did (60_exceptions.md R156). -/

namespace Sys2Proof.Machine

/-- `wrap64` (00_scope.md section 5): the cell value congruent to `v` modulo `2^64`. -/
def wrap64 (v : Int) : Word :=
  BitVec.ofInt 64 v

/-! ### Cells -/

/-- The value of cell `i`; 0 where nothing is listed. -/
def Memory.read : Memory → Nat → Word
  | [], _ => 0#64
  | (j, w) :: rest, i => if i = j then w else Memory.read rest i

/-- Set cell `i` to `v`, keeping the canonical form: indices rising, no cell listed that holds 0. -/
def Memory.write : Memory → Nat → Word → Memory
  | [], i, v => if v = 0#64 then [] else [(i, v)]
  | (j, w) :: rest, i, v =>
    if i < j then (if v = 0#64 then (j, w) :: rest else (i, v) :: (j, w) :: rest)
    else if i = j then (if v = 0#64 then rest else (i, v) :: rest)
    else (j, w) :: Memory.write rest i v

/-- The canonical form from index `lo` on: rising indices, at least `lo`, no zero listed. -/
def Memory.wfFrom : Nat → Memory → Bool
  | _, [] => true
  | lo, (i, v) :: rest => decide (lo ≤ i) && v != 0#64 && Memory.wfFrom (i + 1) rest

/-- The canonical form of memory. -/
def Memory.wf (m : Memory) : Bool :=
  m.wfFrom 0

/-- The list of cell values `p`, laid out from index `i` on. -/
def Memory.ofCells : Nat → List Word → Memory
  | _, [] => []
  | i, v :: rest => if v = 0#64 then Memory.ofCells (i + 1) rest else (i, v) :: Memory.ofCells (i + 1) rest

/-- `M[i]` (00_scope.md section 5), for `i` in range. -/
def State.cell (s : State) (i : Nat) : Word :=
  s.mem.read i

/-- An index of the array: `0 <= a < MEMLEN` (20_memory.md R34). -/
abbrev State.InBounds (s : State) (a : Int) : Prop :=
  0 ≤ a ∧ a < s.memLen

/-- `MemRead(addr, 1)` (20_memory.md R32). -/
def State.memRead (s : State) (addr : Int) : Except Raised Word :=
  if addr < 0 ∨ addr ≥ s.memLen then .error (.outOfBoundsAccess addr)
  else .ok (s.cell addr.toNat)

/-- `M[i] <- v`. -/
def State.setCell (s : State) (i : Nat) (v : Word) : State :=
  { s with mem := s.mem.write i v }

/-- `MemWrite(addr, 1, v)` (20_memory.md R33). -/
def State.memWrite (s : State) (addr : Int) (v : Word) : Except Raised State :=
  if addr < 0 ∨ addr ≥ s.memLen then .error (.outOfBoundsAccess addr)
  else .ok (s.setCell addr.toNat v)

/-! ### Registers -/

/-- `IP <- v`, whatever cell value `v` is (40_execution_cycle.md R80; log 6). -/
def State.jumpTo (s : State) (v : Word) : State :=
  { s with ip := v }

/-- `IP <- IP + delta` (40_execution_cycle.md R80), exact wherever `MEMLEN <= 2^62` (10_state.md R13). -/
def State.advance (s : State) (delta : Nat) : State :=
  s.jumpTo (wrap64 (s.ip.toInt + delta))

/-- `RB <- v`; only AdjustRelativeBase calls it (10_state.md R14). -/
def State.setRb (s : State) (v : Word) : State :=
  { s with rb := v }

/-- `LAST_OUTPUT <- (valid = 1, value = v)` (42_io.md R108). -/
def State.setLastOutput (s : State) (v : Word) : State :=
  { s with lastOutput := some v }

/-- The two bits of `STATUS` (10_state.md R16; log 17). -/
def Status.code : Status → BitVec 2
  | .running => 0
  | .halted => 1
  | .faulted => 2

/-- The three bits of `CAUSE` (10_state.md R17; log 17). -/
def Cause.code : Cause → BitVec 3
  | .none => 0
  | .halt => 1
  | .inputClosed => 2
  | .malformedProgram => 3
  | .outOfBoundsAccess => 4
  | .outputChannelClosed => 5

/-! ### How a run ends -/

/-- A normal ending: `STATUS <- Halted` with its cause and nothing else (42_io.md R106, 46_halt.md R145; log 18). -/
def State.haltWith (s : State) (c : Cause) : State :=
  { s with status := .halted, cause := c }

/-- The cause a fault is recorded under (60_exceptions.md R158). -/
def Raised.cause : Raised → Cause
  | .malformedProgram _ => .malformedProgram
  | .outOfBoundsAccess _ => .outOfBoundsAccess
  | .outputChannelClosed _ => .outputChannelClosed

/-- The information of a fault, `wrap64` of it (60_exceptions.md R158, 40_execution_cycle.md R78). -/
def Raised.info : Raised → Word
  | .malformedProgram w => w
  | .outOfBoundsAccess a => wrap64 a
  | .outputChannelClosed v => v

/-- Fault entry (60_exceptions.md R158): the three status registers, nothing else (R156). There is no handler and
no return from it: Faulted is terminal (R160). -/
def State.takeFault (s : State) (e : Raised) : State :=
  { s with status := .faulted, cause := e.cause, faultInfo := e.info }

/-- The outcome of an instruction begun at `s`: its next state, or the entry of the fault it raised, from `s`
itself (60_exceptions.md R156). -/
def State.finish (s : State) (r : Except Raised State) : Host.Outcome State Fault Refusal :=
  match r with
  | .ok t => .next t
  | .error e => .next (s.takeFault e)

/-! ### Fetch and decode -/

/-- Fetch: the word at `IP`, read anew at every step (40_execution_cycle.md R71, 20_memory.md R44). -/
def State.fetch (s : State) : Except Raised Word :=
  s.memRead s.ip.toInt

/-- The decode stage under an opcode map: any decode failure raises `MalformedProgram(w)` (40_execution_cycle.md R72). -/
def decodeStage (map : OpcodeMap) (w : Word) : Except Raised Instr :=
  match decodeWith map w with
  | .ok i => .ok i
  | .error _ => .error (.malformedProgram w)

/-- Fetch, then decode (40_execution_cycle.md R70), under an opcode map (00_scope.md R5). -/
def State.fetchInstrWith (map : OpcodeMap) (s : State) : Except Raised Instr := do
  let w ← s.fetch
  decodeStage map w

/-- Fetch, then decode, with the numbers of 30_encoding.md R52. -/
def State.fetchInstr (s : State) : Except Raised Instr :=
  s.fetchInstrWith opcodeMap

/-! ### Placing an instruction where the next step fetches it -/

/-- Write the cells `ws` from index `i` on. -/
def State.placeCells : State → Nat → List Word → State
  | s, _, [] => s
  | s, i, v :: rest => State.placeCells (s.setCell i v) (i + 1) rest

/-- `s` Running, with `ws` stored at `IP`. Only where the fetch needs it are other fields changed: a terminal state
becomes Running as by a reset, an `IP` without room for `ws` becomes 0, and a memory too short for `ws` grows to
their length (log 25). -/
def State.placeInstr (s : State) (ws : List Word) : State :=
  let len := max s.memLen ws.length
  let ip : Word := if 0 ≤ s.ip.toInt ∧ s.ip.toInt + ws.length ≤ len then s.ip else 0
  let r : State :=
    match s.status with
    | .running => s
    | .halted => { s with status := .running, cause := .none, faultInfo := 0 }
    | .faulted => { s with status := .running, cause := .none, faultInfo := 0 }
  State.placeCells { r with memLen := len, ip := ip } ip.toNat ws

end Sys2Proof.Machine
end

