-- ==== Sys2Proof/Machine/Operands.lean ====
section
/-! DEFINITION. The load-store unit (40_execution_cycle.md R73 to R79): parameter fetch and the operand modes. -/

namespace Sys2Proof.Machine

/-- Parameter `k` of the instruction at `IP` (40_execution_cycle.md R74); `IP + k` is exact. -/
def State.param (s : State) (k : Nat) : Except Raised Word :=
  s.memRead (s.ip.toInt + k)

/-- `ReadOperand(k)` under mode `m` (40_execution_cycle.md R75 to R79). The sum `p + RB` is exact (R78; log 11). -/
def State.readOperand (s : State) (k : Nat) (m : Mode) : Except Raised Word := do
  let p ← s.param k
  match m with
  | .immediate => .ok p
  | .position => s.memRead p.toInt
  | .relative => s.memRead (p.toInt + s.rb.toInt)

/-- The check of a target index (40_execution_cycle.md R76, R77). -/
def State.checkTarget (s : State) (t : Int) : Except Raised Int :=
  if t < 0 ∨ t ≥ s.memLen then .error (.outOfBoundsAccess t) else .ok t

/-- `WriteTarget(k)` under mode `m` (40_execution_cycle.md R79): an index in range. Immediate does not occur here,
since `decode` refuses it; for an instruction term no word decodes to, this raises what R59 names, with the cell at
`IP` as the word (log 10). -/
def State.writeTarget (s : State) (k : Nat) (m : Mode) : Except Raised Int := do
  let p ← s.param k
  match m with
  | .position => s.checkTarget p.toInt
  | .relative => s.checkTarget (p.toInt + s.rb.toInt)
  | .immediate => .error (.malformedProgram (s.cell s.ip.toInt.toNat))

/-- The shape shared by the RRW instructions (40_execution_cycle.md R81): both operands, then the target, then the
one write, then `IP + 4`. -/
def State.binaryOp (s : State) (f : Word → Word → Word) (a b dst : Mode) : Except Raised State := do
  let x ← s.readOperand 1 a
  let y ← s.readOperand 2 b
  let t ← s.writeTarget 3 dst
  let u ← s.memWrite t (f x y)
  .ok (u.advance 4)

/-- The shape shared by the two jumps (40_execution_cycle.md R81): both operands are resolved, taken or not (R73;
log 14), then `IP <- b` or `IP + 3`. -/
def State.branchOp (s : State) (taken : Word → Bool) (a b : Mode) : Except Raised State := do
  let x ← s.readOperand 1 a
  let y ← s.readOperand 2 b
  .ok (if taken x then s.jumpTo y else s.advance 3)

end Sys2Proof.Machine
end

