-- ==== Sys2Proof/Machine/Arithmetic.lean ====
section
/-! DEFINITION. Add and Multiply (41_arithmetic.md): the exact result, wrapped to a cell (R90). -/

namespace Sys2Proof.Machine

/-- The sum of two cell values (41_arithmetic.md R90, R91). -/
def addValue (a b : Word) : Word :=
  wrap64 (a.toInt + b.toInt)

/-- The product of two cell values (41_arithmetic.md R90, R92). -/
def multiplyValue (a b : Word) : Word :=
  wrap64 (a.toInt * b.toInt)

/-- Add (41_arithmetic.md R91). -/
def execAdd (a b dst : Mode) (s : State) : Host.Outcome State Fault Refusal :=
  s.finish (s.binaryOp addValue a b dst)

/-- Multiply (41_arithmetic.md R92). -/
def execMultiply (a b dst : Mode) (s : State) : Host.Outcome State Fault Refusal :=
  s.finish (s.binaryOp multiplyValue a b dst)

end Sys2Proof.Machine
end

