-- ==== Sys2Proof/Machine/Flags.lean ====
section
/-! DEFINITION. There are no flags and no condition codes (10_state.md R19): a comparison's truth value goes to a
memory cell and a jump tests an operand. This file holds those truth values and tests. -/

namespace Sys2Proof.Machine

/-- The cell value of a truth value: 1 or 0 (44_compare.md R132; log 13: PRESUMED, unsafe). -/
def truthValue (b : Bool) : Word :=
  if b then 1 else 0

/-- Signed less-than of two cell values (44_compare.md R130). -/
def lessThanValue (a b : Word) : Word :=
  truthValue (decide (a.toInt < b.toInt))

/-- Equality of two cell values (44_compare.md R131). -/
def equalsValue (a b : Word) : Word :=
  truthValue (decide (a.toInt = b.toInt))

/-- JumpIfTrue's test: any value but 0 (43_jumps.md R120). -/
def isTrue (a : Word) : Bool :=
  decide (a.toInt ≠ 0)

/-- JumpIfFalse's test: exactly 0 (43_jumps.md R121). -/
def isFalse (a : Word) : Bool :=
  decide (a.toInt = 0)

end Sys2Proof.Machine
end

