-- ==== Sys2Proof/Machine/Compare.lean ====
section
/-! DEFINITION. The two comparisons (44_compare.md): the truth value goes to a memory cell. -/

namespace Sys2Proof.Machine

/-- LessThan (44_compare.md R130). -/
def execLessThan (a b dst : Mode) (s : State) : Host.Outcome State Fault Refusal :=
  s.finish (s.binaryOp lessThanValue a b dst)

/-- Equals (44_compare.md R131). -/
def execEquals (a b dst : Mode) (s : State) : Host.Outcome State Fault Refusal :=
  s.finish (s.binaryOp equalsValue a b dst)

end Sys2Proof.Machine
end

