-- ==== Sys2Proof/Machine/Io.lean ====
section
/-! DEFINITION. The I/O controller (42_io.md): the channel contract as CORE sees it, Input and Output. -/

namespace Sys2Proof.Machine

/-- What `InPoll()` answers (42_io.md R101). -/
inductive Poll where
  | value (v : Word)
  | empty
  | closed
  deriving DecidableEq, Repr

/-- `InPoll()` (42_io.md R101): the head, or whether an empty channel is closed; it changes nothing. -/
def State.inPoll (s : State) : Poll :=
  match s.inQ with
  | v :: _ => .value v
  | [] => if s.inClosed then .closed else .empty

/-- `InTake()` (42_io.md R101): the head is removed. -/
def State.inTake (s : State) : State :=
  { s with inQ := s.inQ.tail }

/-- `OutSend(v)` (42_io.md R103): `none` is Closed, and then nothing is appended. It never waits (log 20). -/
def State.outSend (s : State) (v : Word) : Option State :=
  if s.outClosed then none else some { s with outQ := s.outQ ++ [v] }

/-- Input's effect (42_io.md R105 to R107): the target is resolved and checked before the channel is looked at. On a
closed and empty channel the run halts with `IP` at the Input (R106); on an open and empty one nothing changes and
the next step tries again (R107; log 22). -/
def State.inputOp (s : State) (dst : Mode) : Except Raised State := do
  let t ← s.writeTarget 1 dst
  match s.inPoll with
  | .value v => do
    let u ← s.inTake.memWrite t v
    .ok (u.advance 2)
  | .closed => .ok (s.haltWith .inputClosed)
  | .empty => .ok s

/-- Output's effect (42_io.md R108, R109): the value is sent and recorded, or the fault is raised and neither
happens. -/
def State.outputOp (s : State) (a : Mode) : Except Raised State := do
  let x ← s.readOperand 1 a
  match s.outSend x with
  | some u => .ok ((u.setLastOutput x).advance 2)
  | none => .error (.outputChannelClosed x)

/-- Input (42_io.md R105). -/
def execInput (dst : Mode) (s : State) : Host.Outcome State Fault Refusal :=
  s.finish (s.inputOp dst)

/-- Output (42_io.md R108). -/
def execOutput (a : Mode) (s : State) : Host.Outcome State Fault Refusal :=
  s.finish (s.outputOp a)

/-- Whether an Input with destination mode `dst` would hold: its target is in range and the channel is open and
empty (42_io.md R107). -/
def State.inputHolds (s : State) (dst : Mode) : Bool :=
  match s.writeTarget 1 dst with
  | .ok _ => s.inPoll == .empty
  | .error _ => false

/-- Held at an Input (10_state.md R16): Running, and the next step's outcome is hold, under an opcode map. -/
def State.heldWith (map : OpcodeMap) (s : State) : Bool :=
  match s.status, s.fetchInstrWith map with
  | .running, .ok (.input dst) => s.inputHolds dst
  | _, _ => false

/-- Held at an Input, with the numbers of 30_encoding.md R52. -/
def State.held (s : State) : Bool :=
  s.heldWith opcodeMap

end Sys2Proof.Machine
end

