-- ==== Sys2Proof/Machine/Jumps.lean ====
section
/-! DEFINITION. The two conditional jumps (43_jumps.md). The target is absolute and copied into `IP` unchecked; a
bad one faults at the next fetch (R122; log 6). -/

namespace Sys2Proof.Machine

/-- JumpIfTrue (43_jumps.md R120). -/
def execJumpIfTrue (a b : Mode) (s : State) : Host.Outcome State Fault Refusal :=
  s.finish (s.branchOp isTrue a b)

/-- JumpIfFalse (43_jumps.md R121). -/
def execJumpIfFalse (a b : Mode) (s : State) : Host.Outcome State Fault Refusal :=
  s.finish (s.branchOp isFalse a b)

end Sys2Proof.Machine
end

