-- ==== Sys2Proof/Machine/System.lean ====
section
/-! DEFINITION. AdjustRelativeBase (45_relative_base.md) and Halt (46_halt.md). -/

namespace Sys2Proof.Machine

/-- AdjustRelativeBase's effect (45_relative_base.md R140): a Relative operand uses the old `RB`; the sum wraps (log
12). -/
def State.adjustOp (s : State) (a : Mode) : Except Raised State := do
  let x ← s.readOperand 1 a
  .ok ((s.setRb (wrap64 (s.rb.toInt + x.toInt))).advance 2)

/-- AdjustRelativeBase (45_relative_base.md R140). -/
def execAdjustRelativeBase (a : Mode) (s : State) : Host.Outcome State Fault Refusal :=
  s.finish (s.adjustOp a)

/-- Halt (46_halt.md R145): no parameter is fetched and `IP` stays (log 18). -/
def execHalt (s : State) : Host.Outcome State Fault Refusal :=
  .next (s.haltWith .halt)

end Sys2Proof.Machine
end

