-- ==== Sys2Proof/Machine/Step.lean ====
section
/-! DEFINITION. One step of CORE (40_execution_cycle.md R70, R81): fetch, decode, resolve and apply. -/

namespace Sys2Proof.Machine

/-- `Step()` (40_execution_cycle.md R81) of an implementation with the opcode map `map` (00_scope.md R5). In a terminal
state there is no step: nothing changes (R70; log 19). A fetch or decode fault is entered like any other
(60_exceptions.md R158). -/
def stepWith (map : OpcodeMap) (s : State) : Host.Outcome State Fault Refusal :=
  match s.status with
  | .halted => .next s
  | .faulted => .next s
  | .running =>
    match s.fetchInstrWith map with
    | .error e => .next (s.takeFault e)
    | .ok i => exec i s

/-- `Step()` with the opcode numbers of 30_encoding.md R52 (log 1). -/
def step (s : State) : Host.Outcome State Fault Refusal :=
  stepWith opcodeMap s

/-- `s` with a table word's cells stored where `step` fetches its next instruction, and Running (log 25). -/
def State.withFetchWord (s : State) (nbits w : Nat) : State :=
  s.placeInstr (tableCells nbits w)

end Sys2Proof.Machine
end

