-- ==== Sys2Proof/Machine/HostPort.lean ====
section
/-! DEFINITION. The host's side (10_state.md R22, log 26): `Reset(P)`, the far ends of the two channels, the choice of a
run's channels (log 31), and `Inspect`. The host acts between steps (60_exceptions.md R163) and reaches `M`, `IP` and `RB`
only by these. -/

namespace Sys2Proof.Machine

/-- `Reset(P)` with slack `slack` (70_reset_and_hazards.md R190): all of CORE's state is set, the channels are left
alone (R193). It is allowed in any state (R191). Claims that use it take `P.length + slack <= 2^62` (00_scope.md R5). -/
def State.load (s : State) (slack : Nat) (program : List Word) : State :=
  { s with
    mem := Memory.ofCells 0 program
    memLen := program.length + slack
    ip := 0
    rb := 0
    lastOutput := none
    status := .running
    cause := .none
    faultInfo := 0 }

/-- The two channels of a run, as the host hands them over (10_state.md R20). -/
structure Channels where
  inQ : List Word
  inClosed : Bool
  outQ : List Word
  outClosed : Bool
  deriving DecidableEq, Repr

/-- The channels the run uses. -/
def State.channels (s : State) : Channels :=
  ⟨s.inQ, s.inClosed, s.outQ, s.outClosed⟩

/-- Bind other channels; CORE's state is not touched. -/
def State.bindChannels (s : State) (c : Channels) : State :=
  { s with inQ := c.inQ, inClosed := c.inClosed, outQ := c.outQ, outClosed := c.outClosed }

/-- The start of a run: `Reset(P)`, then the channels the host decides on for this run (70_reset_and_hazards.md R193,
R195). That the choice comes with a reset and never later is the model's (log 31: DESIGN CHOICE). -/
def State.startRun (s : State) (slack : Nat) (program : List Word) (c : Channels) : State :=
  (s.load slack program).bindChannels c

/-- The host appends `v` to `InQ`; once the channel is closed nothing is appended (42_io.md R100, R102). -/
def State.hostAppend (s : State) (v : Word) : State :=
  if s.inClosed then s else { s with inQ := s.inQ ++ [v] }

/-- The host closes the input channel, for good (42_io.md R102). -/
def State.hostCloseInput (s : State) : State :=
  { s with inClosed := true }

/-- The value the host takes from the output channel, and what is left; none if there is nothing to take, or if the
listener is gone and nobody reads (42_io.md R103, R104; log 30). -/
def State.hostTake (s : State) : Option (Word × State) :=
  if s.outClosed then none
  else
    match s.outQ with
    | [] => none
    | v :: rest => some (v, { s with outQ := rest })

/-- The host drops its listener, for good; what was sent stays in `OutQ` (42_io.md R104). -/
def State.hostDropListener (s : State) : State :=
  { s with outClosed := true }

/-- The host's transactions that change something (10_state.md R22). `reset` leaves the channels of the run before in
place (70_reset_and_hazards.md R193); `startRun` is the reset with which the host also decides on the run's channels.
R22 names no transaction for that decision: the model makes it a part of a reset (log 31: DESIGN CHOICE). -/
inductive HostAction where
  | reset (program : List Word)
  | startRun (program : List Word) (channels : Channels)
  | append (v : Word)
  | closeInput
  | take
  | dropListener
  deriving DecidableEq, Repr

/-- The program an act resets to, if it resets. -/
def HostAction.program : HostAction → Option (List Word)
  | .reset program => some program
  | .startRun program _ => some program
  | .append _ => none
  | .closeInput => none
  | .take => none
  | .dropListener => none

/-- The channels an act binds, if it binds any. -/
def HostAction.binds : HostAction → Option Channels
  | .startRun _ channels => some channels
  | .reset _ => none
  | .append _ => none
  | .closeInput => none
  | .take => none
  | .dropListener => none

/-- The state after a host transaction, on an implementation with slack `slack` (00_scope.md R5). -/
def State.hostAct (s : State) (slack : Nat) : HostAction → State
  | .reset program => s.load slack program
  | .startRun program channels => s.startRun slack program channels
  | .append v => s.hostAppend v
  | .closeInput => s.hostCloseInput
  | .take =>
    match s.hostTake with
    | some (_, t) => t
    | none => s
  | .dropListener => s.hostDropListener

/-- CORE's state: all the host can inspect, and nothing of the channels (10_state.md sections 1 and 9). -/
structure CoreView where
  mem : Memory
  memLen : Nat
  ip : Word
  rb : Word
  lastOutput : Option Word
  status : Status
  cause : Cause
  faultInfo : Word
  deriving DecidableEq, Repr

/-- CORE's part of the state. -/
def State.coreView (s : State) : CoreView :=
  ⟨s.mem, s.memLen, s.ip, s.rb, s.lastOutput, s.status, s.cause, s.faultInfo⟩

/-- `Inspect` (10_state.md R22): only in a terminal state. -/
def State.inspect (s : State) : Option CoreView :=
  match s.status with
  | .running => none
  | .halted => some s.coreView
  | .faulted => some s.coreView

end Sys2Proof.Machine
end

