-- ==== Sys2Proof/Machine/Loader.lean ====
section
/-! DEFINITION. The loader outside CORE: program text to cell values (30_encoding.md R64, log 29). The grammar is
`program = integer ("," integer)*`, `integer = ["-"] digit+`; any other text, and an integer that does not fit a cell,
is no program. -/

namespace Sys2Proof.Machine

/-- The pieces of a text between its commas. -/
def splitCommas : List Char → List (List Char)
  | [] => [[]]
  | c :: rest =>
    if c = ',' then [] :: splitCommas rest
    else
      match splitCommas rest with
      | [] => [[c]]
      | piece :: more => (c :: piece) :: more

/-- The value of a decimal digit. -/
def digitOf (c : Char) : Option Nat :=
  if 48 ≤ c.toNat ∧ c.toNat ≤ 57 then some (c.toNat - 48) else none

/-- Read digits on top of the value read so far. -/
def natOf : Nat → List Char → Option Nat
  | acc, [] => some acc
  | acc, c :: rest =>
    match digitOf c with
    | none => none
    | some d => natOf (10 * acc + d) rest

/-- `integer = ["-"] digit+`. -/
def integerOf : List Char → Option Int
  | [] => none
  | c :: rest =>
    if c = '-' then
      match rest with
      | [] => none
      | _ :: _ => (natOf 0 rest).map fun n => -(n : Int)
    else (natOf 0 (c :: rest)).map fun n => (n : Int)

/-- The cell value of an integer, none where it does not fit (70_reset_and_hazards.md R194). -/
def cellOf (v : Int) : Option Word :=
  if -2 ^ 63 ≤ v ∧ v < 2 ^ 63 then some (wrap64 v) else none

/-- One piece of a program text to its cell. -/
def pieceCell (piece : List Char) : Option Word :=
  match integerOf piece with
  | none => none
  | some v => cellOf v

/-- Every piece to its cell, none if one is no cell. -/
def piecesCells : List (List Char) → Option (List Word)
  | [] => some []
  | piece :: rest =>
    match pieceCell piece, piecesCells rest with
    | some w, some ws => some (w :: ws)
    | _, _ => none

/-- The program a text spells: element `i` becomes `M[i]` at reset (30_encoding.md R64). -/
def parseProgram (text : List Char) : Option (List Word) :=
  piecesCells (splitCommas text)

/-- Reset to the program a text spells, if it spells one. -/
def State.loadText (s : State) (slack : Nat) (text : List Char) : Option State :=
  (parseProgram text).map (s.load slack)

end Sys2Proof.Machine
end

