-- ==== Sys2Proof/Machine/Network.lean ====
section
/-! DEFINITION. Several machines joined in a ring (60_exceptions.md R180 to R183). The ring builder is outside CORE
(00_scope.md R4); this file models what the spec says of the environment around CORE (log 27). The schedule is an
argument: any machine may take the next step (R180). -/

namespace Sys2Proof.Machine

/-- A machine of the ring with the two facts that decide whether its input channel is closed: the host still holds a
sender for priming, and the upstream machine's run has ended (60_exceptions.md R182). -/
structure Node where
  core : State
  hostSends : Bool
  upstreamEnded : Bool
  deriving DecidableEq, Repr

/-- Node `i` sends to node `i + 1`, the last one to node 0 (60_exceptions.md R181). -/
abbrev Network := List Node

/-- The input channel is closed once no sender is left, and stays closed (60_exceptions.md R182, 42_io.md R102). -/
def Node.settle (n : Node) : Node :=
  { n with core := { n.core with inClosed := n.core.inClosed || (n.upstreamEnded && !n.hostSends) } }

/-- What the upstream machine's step brings: the values it sent, in order, and whether its run has ended. Its end
does not remove a listener anywhere (60_exceptions.md R182, 90_conflicts.md C10). -/
def Node.receive (n : Node) (sent : List Word) (ended : Bool) : Node :=
  Node.settle
    { n with
      core := { n.core with inQ := n.core.inQ ++ sent }
      upstreamEnded := n.upstreamEnded || ended }

/-- The run of a machine has ended (60_exceptions.md R150). -/
def State.ended (s : State) : Bool :=
  s.status != .running

/-- Machine `i` takes a step; what it sent is appended to the input queue of the machine after it (60_exceptions.md
R181). All machines have the opcode map `map`. -/
def Network.stepAt (net : Network) (map : OpcodeMap) (i : Nat) : Network :=
  match net[i]? with
  | none => net
  | some n =>
    match stepWith map n.core with
    | .next t =>
      (net.set i { n with core := { t with outQ := [] } }).modify ((i + 1) % net.length)
        fun d => d.receive t.outQ t.ended
    | .fault _ => net
    | .refused _ => net

/-- The host primes machine `i` with a value, while it holds its sender (60_exceptions.md R181). -/
def Network.prime (net : Network) (i : Nat) (v : Word) : Network :=
  net.modify i fun n => if n.hostSends then { n with core := n.core.hostAppend v } else n

/-- The host drops its priming sender of machine `i` (60_exceptions.md R182). -/
def Network.dropPrimer (net : Network) (i : Nat) : Network :=
  net.modify i fun n => Node.settle { n with hostSends := false }

/-- A fresh ring: each program loaded with the given slack into its own machine, channels empty and open
(60_exceptions.md R180, R181). -/
def Network.build (slack : Nat) (programs : List (List Word)) : Network :=
  programs.map fun p => ⟨State.reset.load slack p, true, false⟩

/-- Every machine is held at an Input: no machine of the network can move (60_exceptions.md R183). -/
def Network.deadlocked (net : Network) (map : OpcodeMap) : Bool :=
  net.all fun n => n.core.heldWith map

/-- The host drops the listener of machine `i`: the only way its output loses one (60_exceptions.md R182). -/
def Network.dropListener (net : Network) (i : Nat) : Network :=
  net.modify i fun n => { n with core := n.core.hostDropListener }

/-- What can happen in a network: a step of one machine, or an act of the host. -/
inductive NetEvent where
  | step (i : Nat)
  | prime (i : Nat) (v : Word)
  | dropPrimer (i : Nat)
  | dropListener (i : Nat)
  deriving DecidableEq, Repr

/-- The network after an event. -/
def Network.event (net : Network) (map : OpcodeMap) : NetEvent → Network
  | .step i => net.stepAt map i
  | .prime i v => net.prime i v
  | .dropPrimer i => net.dropPrimer i
  | .dropListener i => net.dropListener i

/-- Ring invariant: what a machine sent is already downstream; a machine knows whether its upstream machine's run has
ended; and an input channel is closed exactly when that is so and the host holds no sender (60_exceptions.md R182). -/
def Network.Inv (net : Network) : Prop :=
  ∀ (i : Nat) (n d : Node), net[i]? = some n → net[(i + 1) % net.length]? = some d →
    n.core.outQ = [] ∧ d.upstreamEnded = n.core.ended ∧ d.core.inClosed = (d.upstreamEnded && !d.hostSends)

end Sys2Proof.Machine
end

