-- ==== Sys2Proof/Safety.lean ====
section
/-! DEFINITION. What claims speak of: the operands of the instruction at `IP` as the spec describes them, without the
machine's own resolve functions; the invariant of the state; and what a terminal state records about how the run
ended. -/

namespace Sys2Proof

/-- The operands of an instruction in parameter order: parameter number and mode (30_encoding.md R53). -/
def Instr.operands : Instr → List (Nat × Mode)
  | .add a b d => [(1, a), (2, b), (3, d)]
  | .multiply a b d => [(1, a), (2, b), (3, d)]
  | .input d => [(1, d)]
  | .output a => [(1, a)]
  | .jumpIfTrue a b => [(1, a), (2, b)]
  | .jumpIfFalse a b => [(1, a), (2, b)]
  | .lessThan a b d => [(1, a), (2, b), (3, d)]
  | .equals a b d => [(1, a), (2, b), (3, d)]
  | .adjustRelativeBase a => [(1, a)]
  | .halt => []

end Sys2Proof

namespace Sys2Proof.Machine

/-! ### The operands of the instruction at `IP` -/

/-- The cell of parameter `k` (40_execution_cycle.md R74). -/
def State.paramCell (s : State) (k : Nat) : Word :=
  s.cell (s.ip.toInt + k).toNat

/-- The cell index parameter `k` names under a mode: the parameter, or the exact sum with `RB`
(40_execution_cycle.md R76 to R78). Immediate names no index; it is given the parameter's value and nothing uses it. -/
def State.operandIndex (s : State) (k : Nat) : Mode → Int
  | .position => (s.paramCell k).toInt
  | .immediate => (s.paramCell k).toInt
  | .relative => (s.paramCell k).toInt + s.rb.toInt

/-- The value of read operand `k` (40_execution_cycle.md R75 to R77). -/
def State.operandValue (s : State) (k : Nat) : Mode → Word
  | .position => s.cell (s.operandIndex k .position).toNat
  | .immediate => s.paramCell k
  | .relative => s.cell (s.operandIndex k .relative).toNat

/-- Read operand `k` resolves: its parameter cell exists, and so does the cell it names, if it names one. -/
def State.Readable (s : State) (k : Nat) (m : Mode) : Prop :=
  s.InBounds (s.ip.toInt + k) ∧ (m ≠ .immediate → s.InBounds (s.operandIndex k m))

/-- Destination `k` resolves: it is not Immediate, its parameter cell exists, and so does the cell it names. -/
def State.Writable (s : State) (k : Nat) (m : Mode) : Prop :=
  s.InBounds (s.ip.toInt + k) ∧ m ≠ .immediate ∧ s.InBounds (s.operandIndex k m)

/-- The index operand `k` fails on, if it does: its parameter's, else the one it names (60_exceptions.md R152, R157). -/
def State.badIndex (s : State) (k : Nat) (m : Mode) : Option Int :=
  if s.InBounds (s.ip.toInt + k) then
    if m = .immediate ∨ s.InBounds (s.operandIndex k m) then none else some (s.operandIndex k m)
  else some (s.ip.toInt + k)

/-- The first failing index among operands in ascending order (40_execution_cycle.md R73, log 14). -/
def State.firstBadIndex (s : State) : List (Nat × Mode) → Option Int
  | [] => none
  | (k, m) :: rest =>
    match s.badIndex k m with
    | some a => some a
    | none => s.firstBadIndex rest

/-- The five outcomes of a step (00_scope.md section 5). -/
inductive StepKind where
  | next
  | halt
  | fault
  | hold
  | noStep
  deriving DecidableEq, Repr

/-- Which of the five outcomes the next step has (00_scope.md section 5); the host's `fault` and `refused` never
occur and are counted as `fault`. -/
def State.stepKind (s : State) : StepKind :=
  match s.status with
  | .halted => .noStep
  | .faulted => .noStep
  | .running =>
    if s.held then .hold
    else
      match step s with
      | .next t =>
        match t.status with
        | .running => .next
        | .halted => .halt
        | .faulted => .fault
      | .fault _ => .fault
      | .refused _ => .fault

/-! ### Invariants -/

/-- What every reachable state satisfies: memory is in canonical form and lists no cell past its end, `MEMLEN` is
within its bound, and the three status registers agree (10_state.md R11, R16 to R18; 00_scope.md R5). -/
structure State.Inv (s : State) : Prop where
  memWf : s.mem.wf = true
  listed : ∀ c ∈ s.mem, c.1 < s.memLen
  memLenLe : s.memLen ≤ Config.memLenMax
  runningClean : s.status = .running → s.cause = .none ∧ s.faultInfo = 0
  haltedCause : s.status = .halted → (s.cause = .halt ∨ s.cause = .inputClosed) ∧ s.faultInfo = 0
  faultedCause : s.status = .faulted →
    s.cause = .malformedProgram ∨ s.cause = .outOfBoundsAccess ∨ s.cause = .outputChannelClosed

/-- What a terminal state still shows of how its run ended (60_exceptions.md R150 to R154): `IP` is at the instruction
that ended it, and that instruction ends the run for the recorded cause with the recorded information. -/
def State.EndExplained (s : State) : Prop :=
  match s.cause with
  | .none => True
  | .halt => s.fetchInstr = .ok .halt
  | .inputClosed => ∃ m, s.fetchInstr = .ok (.input m) ∧ s.Writable 1 m ∧ s.inQ = [] ∧ s.inClosed = true
  | .malformedProgram =>
    s.InBounds s.ip.toInt ∧ s.faultInfo = s.cell s.ip.toInt.toNat ∧ ∃ e, decode s.faultInfo = .error e
  | .outOfBoundsAccess => ∃ a : Int, ¬ s.InBounds a ∧ s.faultInfo = wrap64 a ∧
      (a = s.ip.toInt ∨ ∃ i, s.fetchInstr = .ok i ∧ s.firstBadIndex i.operands = some a)
  | .outputChannelClosed => ∃ m, s.fetchInstr = .ok (.output m) ∧ s.Readable 1 m ∧
      s.faultInfo = s.operandValue 1 m ∧ s.outClosed = true

/-- A safe state: its run has not ended in a fault. -/
def State.Safe (s : State) : Prop :=
  s.status ≠ .faulted

end Sys2Proof.Machine
end

