-- ==== Sys2Proof/Certificates/Slice0/Obligations.lean ====
section
/-! DEFINITION. The statements for the provers. `Claims` holds the frames they are written with. -/

namespace Sys2Proof.Claims

open Sys2Proof Sys2Proof.Machine

/-- Every cell of memory reads as before. -/
def SameCells (s t : State) : Prop :=
  ∀ j, t.cell j = s.cell j

/-- Cell `i` reads `v`, and every other cell reads as before. -/
def OnlyCell (s t : State) (i : Nat) (v : Word) : Prop :=
  t.cell i = v ∧ ∀ j, j ≠ i → t.cell j = s.cell j

/-- The three status registers and the length of memory are as before. -/
def SameStatus (s t : State) : Prop :=
  t.status = s.status ∧ t.cause = s.cause ∧ t.faultInfo = s.faultInfo ∧ t.memLen = s.memLen

/-- Both channels are as before. -/
def SameChannels (s t : State) : Prop :=
  t.inQ = s.inQ ∧ t.inClosed = s.inClosed ∧ t.outQ = s.outQ ∧ t.outClosed = s.outClosed

/-- The result and the frame of an RRW instruction that stores `v`: the destination cell, `IP + 4`, nothing else. -/
def StoresAndAdvances (s t : State) (dst : Mode) (v : Int) : Prop :=
  (∃ w : Word, w.toInt = v ∧ OnlyCell s t (s.operandIndex 3 dst).toNat w) ∧ t.ip.toInt = s.ip.toInt + 4 ∧
    t.rb = s.rb ∧ t.lastOutput = s.lastOutput ∧ SameStatus s t ∧ SameChannels s t

/-- `wrap64` as 00_scope.md section 5 writes it. -/
def wrapped (v : Int) : Int :=
  (v + 2 ^ 63) % 2 ^ 64 - 2 ^ 63

/-- `i` completes at `s`, and the fetch after it reads `v`. -/
def NextFetchReads (i : Instr) (s : State) (v : Int) : Prop :=
  ∃ t w, exec i s = .next t ∧ t.fetch = .ok w ∧ w.toInt = v

/-- The frame of a jump: `IP` only. -/
def OnlyIp (s t : State) : Prop :=
  SameCells s t ∧ t.rb = s.rb ∧ t.lastOutput = s.lastOutput ∧ SameStatus s t ∧ SameChannels s t

/-- The fault entry of a step begun at `s` (60_exceptions.md R156, R158): every cell, `IP`, `RB`, `LAST_OUTPUT` and both
channels as before, the three status registers set. -/
def FaultEntry (s t : State) (c : Cause) (info : Int) : Prop :=
  t.status = .faulted ∧ t.cause = c ∧ t.faultInfo.toInt = wrapped info ∧ SameCells s t ∧ t.ip = s.ip ∧ t.rb = s.rb ∧
    t.lastOutput = s.lastOutput ∧ t.memLen = s.memLen ∧ SameChannels s t

/-- An integer as the grammar of 30_encoding.md R64 writes it: whether it has a minus sign, and its digits. -/
abbrev Spelling := Bool × List (Fin 10)

/-- The characters of a spelling. -/
def spell (t : Spelling) : List Char :=
  (if t.1 then ['-'] else []) ++ t.2.map fun d => Char.ofNat (48 + d.val)

/-- The integer a spelling stands for. -/
def spelled (t : Spelling) : Int :=
  (if t.1 then -1 else 1) * ((t.2.foldl (fun acc d => 10 * acc + d.val) 0 : Nat) : Int)

/-- A state without its `LAST_OUTPUT`. -/
def withoutLastOutput (s : State) : State :=
  { s with lastOutput := none }

end Sys2Proof.Claims

open Sys2Proof Sys2Proof.Machine Sys2Proof.Claims

/-! ### Encoding -/

/-- 95_test_vectors.md section 2.1: words of every family decode as listed. The opcode numbers other than 2, 4 and 99
are general knowledge (log 1); that -99, 399 and 10008 are refused is D6, D8 and D9 (logs 7, 9, 10); that 22299 decodes
is D8, and 1000002 is D7 (logs 9, 8). -/
def Obligations.SampleWordsDecode : Prop :=
  decode 21101 = .ok (.add .immediate .immediate .relative) ∧ decode 1002 = .ok (.multiply .position .immediate .position) ∧
    decode 203 = .ok (.input .relative) ∧ decode 104 = .ok (.output .immediate) ∧
    decode 1005 = .ok (.jumpIfTrue .position .immediate) ∧ decode 1106 = .ok (.jumpIfFalse .immediate .immediate) ∧
    decode 1107 = .ok (.lessThan .immediate .immediate .position) ∧
    decode 1008 = .ok (.equals .position .immediate .position) ∧ decode 209 = .ok (.adjustRelativeBase .relative) ∧
    decode 99 = .ok .halt ∧ decode 22299 = .ok .halt ∧ decode 1000002 = .ok (.multiply .position .position .position) ∧
    (∃ e, decode 0 = .error e) ∧ (∃ e, decode 399 = .error e) ∧ (∃ e, decode 10008 = .error e) ∧
    (∃ e, decode (-99) = .error e)

/-- Round trip over every opcode map an implementation could have (00_scope.md R5 makes the map a parameter): the word of
a well-formed instruction decodes to it, whatever digits stand from the `10^5` place up (R60, D7; log 8). -/
def Obligations.DecodeEncodeRoundTrip : Prop :=
  ∀ (map : OpcodeMap) (i : Instr) (high : Nat), map.wf = true → i.WellFormed →
    (encodeWith map i).toNat + 100000 * high < 2 ^ 63 →
    decodeWith map (BitVec.ofNat 64 ((encodeWith map i).toNat + 100000 * high)) = .ok i

/-- 30_encoding.md R55, R58, R60: a word decodes exactly when it is not negative and its low five digits spell an opcode
number and three mode digits 0 to 2 with no Immediate destination; unused mode digits are validated and select nothing
(D8), higher digits are not read (D7), negative words and Immediate destinations are refused (D6, D9). -/
def Obligations.DecodeReadsDigitFields : Prop :=
  ∀ (w : Word) (i : Instr), decode w = .ok i ↔
    0 ≤ w.toInt ∧ ∃ (op : Opcode) (a b c : Mode) (high : Nat),
      w.toNat = opcodeMap.numberOf op + 100 * a.digit + 1000 * b.digit + 10000 * c.digit + 100000 * high ∧
        i = Decoded.instr ⟨op, a, b, c⟩ ∧ i.destination ≠ some .immediate

/-- 30_encoding.md R56 to R60: the words that are malformed, in digits. Negative words, all three mode digits and
Immediate destinations are D6, D8 and D9 (logs 7, 9, 10); that no higher digit matters is D7 (log 8, unsafe); the opcode
numbers are general knowledge but for 2, 4 and 99 (log 1). -/
def Obligations.MalformedWordsExactly : Prop :=
  ∀ w : Word, (∃ e, decode w = .error e) ↔
    w.toInt < 0 ∨ w.toNat % 100 = 0 ∨ (9 < w.toNat % 100 ∧ w.toNat % 100 < 99) ∨
      2 < w.toNat / 100 % 10 ∨ 2 < w.toNat / 1000 % 10 ∨ 2 < w.toNat / 10000 % 10 ∨
      (w.toNat % 100 ∈ [1, 2, 7, 8] ∧ w.toNat / 10000 % 10 = 1) ∨ (w.toNat % 100 = 3 ∧ w.toNat / 100 % 10 = 1)

/-- 30_encoding.md R61 (marked there as derived): 225 words below 100000 are legal. -/
def Obligations.LegalWordsBelow100000Are225 : Prop :=
  ∃ legal : List Nat, legal.length = 225 ∧ legal.Nodup ∧
    ∀ w : Nat, w ∈ legal ↔ w < 100000 ∧ ∃ i, decode (BitVec.ofNat 64 w) = .ok i

/-- 30_encoding.md R51: the opcode field is the two low decimal digits. That a word that decodes is not negative is D6
(R57; log 7), and the number of an opcode is that of the map (log 1). -/
def Obligations.OpcodeIsWordMod100 : Prop :=
  ∀ (w : Word) (i : Instr), decode w = .ok i → 0 ≤ w.toInt ∧ (opcodeMap.numberOf i.opcode : Int) = w.toInt % 100

/-- 30_encoding.md R60 (D7; log 8): `decode` depends on the low five digits only. -/
def Obligations.HighDigitsAreNotRead : Prop :=
  ∀ v w : Word, 0 ≤ v.toInt → 0 ≤ w.toInt → v.toInt % 100000 = w.toInt % 100000 → decode v = decode w

/-! ### Memory and reset -/

/-- 20_memory.md R32. -/
def Obligations.MemReadReturnsCellOrFaults : Prop :=
  ∀ (s : State) (a : Int),
    (0 ≤ a ∧ a < s.memLen → s.memRead a = .ok (s.cell a.toNat)) ∧
      (a < 0 ∨ a ≥ s.memLen → s.memRead a = .error (.outOfBoundsAccess a))

/-- 20_memory.md R33: one cell is written and no other, and nothing else of the state changes. -/
def Obligations.MemWriteChangesOneCell : Prop :=
  ∀ (s : State) (a : Int) (v : Word), s.Inv →
    (0 ≤ a ∧ a < s.memLen → ∃ t, s.memWrite a v = .ok t ∧ OnlyCell s t a.toNat v ∧ t.ip = s.ip ∧ t.rb = s.rb ∧
      t.lastOutput = s.lastOutput ∧ SameStatus s t ∧ SameChannels s t) ∧
    (a < 0 ∨ a ≥ s.memLen → s.memWrite a v = .error (.outOfBoundsAccess a))

/-- The canonical form is canonical (the model's own form of memory, log 4): memories that read alike are equal. -/
def Obligations.EqualReadsGiveEqualMemories : Prop :=
  ∀ m n : Memory, m.wf = true → n.wf = true → (∀ i, m.read i = n.read i) → m = n

/-- 20_memory.md R35, for every conforming slack. -/
def Obligations.SlackGuaranteesProgramPlus1000 : Prop :=
  ∀ (s : State) (slack : Nat) (p : List Word), 1000 ≤ slack →
    (∀ a : Int, 0 ≤ a → a < p.length + 1000 →
      (s.load slack p).InBounds a ∧ ∀ v, ∃ t, (s.load slack p).memWrite a v = .ok t) ∧
    ∀ a : Int, (p.length : Int) + 1000 ≤ a → ((s.load slack p).InBounds a ↔ a < p.length + slack)

/-- 70_reset_and_hazards.md R190, for every conforming slack; `s` and `s'` are any states, so a second reset gives the
same start state. -/
def Obligations.ResetGivesStartState : Prop :=
  ∀ (s s' : State) (slack : Nat) (p : List Word), 1000 ≤ slack → p.length + slack ≤ 2 ^ 62 →
    (s.load slack p).memLen = p.length + slack ∧
      (∀ (i : Nat) (h : i < p.length), (s.load slack p).cell i = p[i]) ∧
      (∀ i, p.length ≤ i → (s.load slack p).cell i = 0) ∧
      (s.load slack p).ip = 0 ∧ (s.load slack p).rb = 0 ∧ (s.load slack p).lastOutput = none ∧
      (s.load slack p).status = .running ∧ (s.load slack p).cause = .none ∧ (s.load slack p).faultInfo = 0 ∧
      (s.load slack p).coreView = (s'.load slack p).coreView

/-- 70_reset_and_hazards.md R193: reset leaves the channels alone. -/
def Obligations.ResetKeepsChannels : Prop :=
  ∀ (s : State) (slack : Nat) (p : List Word), SameChannels s (s.load slack p)

/-- 70_reset_and_hazards.md R192: the first step fetches the first integer of the program, and runs it. -/
def Obligations.FirstFetchReadsCellZero : Prop :=
  ∀ (s : State) (slack : Nat) (v : Word) (p : List Word), 1000 ≤ slack →
    (s.load slack (v :: p)).ip = 0 ∧ (s.load slack (v :: p)).fetch = .ok v ∧
      ∀ i, decode v = .ok i → step (s.load slack (v :: p)) = exec i (s.load slack (v :: p))

/-- The invariants hold at reset, and after a reset to any program that fits (10_state.md R23; the channel values of
`State.reset` are the model's choice, log 23, and nothing here rests on them). -/
def Obligations.ResetMeetsInvariants : Prop :=
  State.reset.Inv ∧ State.reset.EndExplained ∧
    ∀ (s : State) (slack : Nat) (p : List Word), p.length + slack ≤ 2 ^ 62 →
      (s.load slack p).Inv ∧ (s.load slack p).EndExplained

/-- 30_encoding.md R64 (D24; log 29): a text of the grammar whose integers fit a cell is the program of those integers,
in order, and a text with one that does not fit is no program. -/
def Obligations.ProgramTextSpellsItsCells : Prop :=
  ∀ toks : List Spelling, toks ≠ [] → (∀ t ∈ toks, t.2 ≠ []) →
    ((∀ t ∈ toks, -2 ^ 63 ≤ spelled t ∧ spelled t < 2 ^ 63) →
      ∃ p, parseProgram ([','].intercalate (toks.map spell)) = some p ∧ p.map BitVec.toInt = toks.map spelled) ∧
    ((∃ t ∈ toks, spelled t < -2 ^ 63 ∨ 2 ^ 63 ≤ spelled t) →
      parseProgram ([','].intercalate (toks.map spell)) = none)

/-! ### Fetch, decode, step -/

/-- 40_execution_cycle.md R71: fetch reads the cell at `IP`, or the step faults with `IP`, under every opcode map; in the last cell Halt executes
and every other instruction faults at its first parameter. -/
def Obligations.FetchReadsTheCellAtIp : Prop :=
  ∀ s : State, s.status = .running →
    (0 ≤ s.ip.toInt ∧ s.ip.toInt < s.memLen → s.fetch = .ok (s.cell s.ip.toInt.toNat)) ∧
    (s.ip.toInt < 0 ∨ s.ip.toInt ≥ s.memLen → s.fetch = .error (.outOfBoundsAccess s.ip.toInt) ∧
      (∃ t, step s = .next t ∧ FaultEntry s t .outOfBoundsAccess s.ip.toInt) ∧
      ∀ map : OpcodeMap, ∃ t, stepWith map s = .next t ∧ FaultEntry s t .outOfBoundsAccess s.ip.toInt) ∧
    (s.ip.toInt = s.memLen - 1 → 0 ≤ s.ip.toInt →
      (decode (s.cell s.ip.toInt.toNat) = .ok .halt → ∃ t, step s = .next t ∧ t.status = .halted ∧ t.cause = .halt) ∧
      ∀ i, decode (s.cell s.ip.toInt.toNat) = .ok i → i ≠ .halt →
        ∃ t, step s = .next t ∧ FaultEntry s t .outOfBoundsAccess (s.ip.toInt + 1))

/-- A step runs the instruction the cell at `IP` decodes to (40_execution_cycle.md sections 1 to 3), and that
instruction is well-formed, under every opcode map (00_scope.md R5); `step` is the step with the numbers of 30_encoding.md
R52 (log 1). -/
def Obligations.StepRunsTheDecodedInstruction : Prop :=
  ∀ (s : State) (i : Instr), s.status = .running → 0 ≤ s.ip.toInt → s.ip.toInt < s.memLen →
    (∀ map : OpcodeMap, decodeWith map (s.cell s.ip.toInt.toNat) = .ok i → i.WellFormed ∧ stepWith map s = exec i s) ∧
      (decode (s.cell s.ip.toInt.toNat) = .ok i → i.WellFormed ∧ step s = exec i s)

/-- 60_exceptions.md R151, R157 (D15): a word that does not decode raises `MalformedProgram`, whatever stands after it,
under every opcode map. -/
def Obligations.MalformedWordTakesFault : Prop :=
  ∀ (s : State) (e : DecodeError), s.status = .running → 0 ≤ s.ip.toInt → s.ip.toInt < s.memLen →
    (∀ map : OpcodeMap, decodeWith map (s.cell s.ip.toInt.toNat) = .error e →
      ∃ t, stepWith map s = .next t ∧ FaultEntry s t .malformedProgram (s.cell s.ip.toInt.toNat).toInt) ∧
    (decode (s.cell s.ip.toInt.toNat) = .error e →
      ∃ t, step s = .next t ∧ FaultEntry s t .malformedProgram (s.cell s.ip.toInt.toNat).toInt)

/-- 40_execution_cycle.md R70, 60_exceptions.md R160 (D18; log 19): Halted and Faulted are terminal, under every opcode
map. -/
def Obligations.TerminalStatesDoNotStep : Prop :=
  ∀ s : State, s.status = .halted ∨ s.status = .faulted →
    (∀ map, stepWith map s = .next s) ∧ step s = .next s ∧ s.stepKind = .noStep

/-- Every step of every state ends in a next state, under every opcode map: the machine never stops on a state
(60_exceptions.md R155; log 15). -/
def Obligations.EveryStepAnswersNext : Prop :=
  (∀ s : State, ∃ t, step s = .next t) ∧ ∀ (map : OpcodeMap) (s : State), ∃ t, stepWith map s = .next t

/-- 00_scope.md section 5: the five outcomes, each with what it leaves of STATUS (log 22: a hold is a step that changes
nothing). -/
def Obligations.FiveOutcomesOfAStep : Prop :=
  ∀ s : State, ∃ t, step s = .next t ∧
    match s.stepKind with
    | .next => s.status = .running ∧ t.status = .running ∧ s.held = false
    | .halt => s.status = .running ∧ t.status = .halted ∧ (t.cause = .halt ∨ t.cause = .inputClosed)
    | .fault => s.status = .running ∧ t.status = .faulted
    | .hold => s.status = .running ∧ t = s ∧ s.inQ = [] ∧ s.inClosed = false
    | .noStep => s.status ≠ .running ∧ t = s

/-! ### Operands -/

/-- 40_execution_cycle.md R74: the parameter fetch. -/
def Obligations.ParameterIsTheCellAtIpPlusK : Prop :=
  ∀ (s : State) (k : Nat), 0 ≤ s.ip.toInt →
    (s.ip.toInt + k < s.memLen → s.param k = .ok (s.cell (s.ip.toInt + k).toNat)) ∧
      (s.ip.toInt + k ≥ s.memLen → s.param k = .error (.outOfBoundsAccess (s.ip.toInt + k)))

/-- 40_execution_cycle.md R75: an Immediate operand is its parameter, read with no second access; that no word decodes
to an Immediate destination is D9 (30_encoding.md R59; log 10). -/
def Obligations.ImmediateOperandIsTheParameter : Prop :=
  (∀ (s : State) (k : Nat), s.readOperand k .immediate = s.param k) ∧
    ∀ (w : Word) (i : Instr), decode w = .ok i → i.destination ≠ some .immediate

/-- 40_execution_cycle.md R76: Position operands, read and write; `RB` does not matter; a parameter that cannot be
fetched fails first. -/
def Obligations.PositionOperandIsTheCellNamed : Prop :=
  (∀ (s : State) (k : Nat) (p r : Word), s.param k = .ok p →
    (0 ≤ p.toInt ∧ p.toInt < s.memLen →
      s.readOperand k .position = .ok (s.cell p.toInt.toNat) ∧ s.writeTarget k .position = .ok p.toInt) ∧
    (p.toInt < 0 ∨ p.toInt ≥ s.memLen →
      s.readOperand k .position = .error (.outOfBoundsAccess p.toInt) ∧
        s.writeTarget k .position = .error (.outOfBoundsAccess p.toInt)) ∧
    State.readOperand { s with rb := r } k .position = s.readOperand k .position ∧
    State.writeTarget { s with rb := r } k .position = s.writeTarget k .position) ∧
    ∀ (s : State) (k : Nat) (e : Raised), s.param k = .error e →
      s.readOperand k .position = .error e ∧ s.writeTarget k .position = .error e

/-- 40_execution_cycle.md R77: Relative operands, read and write; the sum is exact (R78, D10; log 11). -/
def Obligations.RelativeOperandAddsTheBase : Prop :=
  (∀ (s : State) (k : Nat) (p : Word), s.param k = .ok p →
    (0 ≤ p.toInt + s.rb.toInt ∧ p.toInt + s.rb.toInt < s.memLen →
      s.readOperand k .relative = .ok (s.cell (p.toInt + s.rb.toInt).toNat) ∧
        s.writeTarget k .relative = .ok (p.toInt + s.rb.toInt)) ∧
    (p.toInt + s.rb.toInt < 0 ∨ p.toInt + s.rb.toInt ≥ s.memLen →
      s.readOperand k .relative = .error (.outOfBoundsAccess (p.toInt + s.rb.toInt)) ∧
        s.writeTarget k .relative = .error (.outOfBoundsAccess (p.toInt + s.rb.toInt)))) ∧
    ∀ (s : State) (k : Nat) (e : Raised), s.param k = .error e →
      s.readOperand k .relative = .error e ∧ s.writeTarget k .relative = .error e

/-- 40_execution_cycle.md R78 (D10; log 11): a sum that does not fit 64 bits is out of range, for every parameter, as a
read operand and as a destination; in an Output, `FAULT_INFO` holds the sum wrapped. -/
def Obligations.OverflowingAddressIsOutOfBounds : Prop :=
  ∀ (s : State) (k : Nat) (p : Word), s.Inv → s.param k = .ok p →
    (p.toInt + s.rb.toInt < -2 ^ 63 ∨ p.toInt + s.rb.toInt ≥ 2 ^ 63) →
    s.readOperand k .relative = .error (.outOfBoundsAccess (p.toInt + s.rb.toInt)) ∧
      s.writeTarget k .relative = .error (.outOfBoundsAccess (p.toInt + s.rb.toInt)) ∧
      (k = 1 → ∃ t, exec (.output .relative) s = .next t ∧ FaultEntry s t .outOfBoundsAccess (p.toInt + s.rb.toInt))

/-! ### Results, frames and completion of the ten instructions -/

/-- Add on operands that resolve, any modes, the destination aliasing what it may (41_arithmetic.md section 2). -/
def Obligations.AddStoresWrappedSum : Prop :=
  ∀ (s : State) (a b dst : Mode), s.Inv → s.Readable 1 a → s.Readable 2 b → s.Writable 3 dst →
    ∃ t, exec (.add a b dst) s = .next t ∧
      StoresAndAdvances s t dst (wrapped ((s.operandValue 1 a).toInt + (s.operandValue 2 b).toInt))

/-- Multiply (41_arithmetic.md section 3). -/
def Obligations.MultiplyStoresWrappedProduct : Prop :=
  ∀ (s : State) (a b dst : Mode), s.Inv → s.Readable 1 a → s.Readable 2 b → s.Writable 3 dst →
    ∃ t, exec (.multiply a b dst) s = .next t ∧
      StoresAndAdvances s t dst (wrapped ((s.operandValue 1 a).toInt * (s.operandValue 2 b).toInt))

/-- LessThan (44_compare.md section 2); 1 and 0 are R132's (D12; log 13). -/
def Obligations.LessThanStoresTruthValue : Prop :=
  ∀ (s : State) (a b dst : Mode), s.Inv → s.Readable 1 a → s.Readable 2 b → s.Writable 3 dst →
    ∃ t, exec (.lessThan a b dst) s = .next t ∧
      StoresAndAdvances s t dst (if (s.operandValue 1 a).toInt < (s.operandValue 2 b).toInt then 1 else 0)

/-- Equals (44_compare.md section 3); 1 and 0 are R132's (D12; log 13). -/
def Obligations.EqualsStoresTruthValue : Prop :=
  ∀ (s : State) (a b dst : Mode), s.Inv → s.Readable 1 a → s.Readable 2 b → s.Writable 3 dst →
    ∃ t, exec (.equals a b dst) s = .next t ∧
      StoresAndAdvances s t dst (if (s.operandValue 1 a).toInt = (s.operandValue 2 b).toInt then 1 else 0)

/-- Input with a value waiting, the channel closed or not (42_io.md section 2): the head is taken and stored. -/
def Obligations.InputStoresTheHead : Prop :=
  ∀ (s : State) (dst : Mode) (v : Word) (rest : List Word), s.Inv → s.Writable 1 dst → s.inQ = v :: rest →
    ∃ t, exec (.input dst) s = .next t ∧ OnlyCell s t (s.operandIndex 1 dst).toNat v ∧ t.inQ = rest ∧
      t.ip.toInt = s.ip.toInt + 2 ∧ t.rb = s.rb ∧ t.lastOutput = s.lastOutput ∧ SameStatus s t ∧
      t.inClosed = s.inClosed ∧ t.outQ = s.outQ ∧ t.outClosed = s.outClosed

/-- Output with a listener (42_io.md section 3): the value is appended and recorded. -/
def Obligations.OutputAppendsAndRecords : Prop :=
  ∀ (s : State) (a : Mode), s.Inv → s.Readable 1 a → s.outClosed = false →
    ∃ t, exec (.output a) s = .next t ∧ t.outQ = s.outQ ++ [s.operandValue 1 a] ∧
      t.lastOutput = some (s.operandValue 1 a) ∧ t.ip.toInt = s.ip.toInt + 2 ∧ SameCells s t ∧ t.rb = s.rb ∧
      SameStatus s t ∧ t.inQ = s.inQ ∧ t.inClosed = s.inClosed ∧ t.outClosed = s.outClosed

/-- JumpIfTrue, taken and not taken (43_jumps.md section 1); the target is copied unchecked (D5; log 6). -/
def Obligations.JumpIfTrueTransfersOnNonZero : Prop :=
  ∀ (s : State) (a b : Mode), s.Inv → s.Readable 1 a → s.Readable 2 b →
    ∃ t, exec (.jumpIfTrue a b) s = .next t ∧ OnlyIp s t ∧
      ((s.operandValue 1 a).toInt ≠ 0 → t.ip = s.operandValue 2 b) ∧
      ((s.operandValue 1 a).toInt = 0 → t.ip.toInt = s.ip.toInt + 3)

/-- JumpIfFalse, taken and not taken (43_jumps.md section 2); the target is copied unchecked (D5; log 6). -/
def Obligations.JumpIfFalseTransfersOnZero : Prop :=
  ∀ (s : State) (a b : Mode), s.Inv → s.Readable 1 a → s.Readable 2 b →
    ∃ t, exec (.jumpIfFalse a b) s = .next t ∧ OnlyIp s t ∧
      ((s.operandValue 1 a).toInt = 0 → t.ip = s.operandValue 2 b) ∧
      ((s.operandValue 1 a).toInt ≠ 0 → t.ip.toInt = s.ip.toInt + 3)

/-- AdjustRelativeBase (45_relative_base.md): the operand is read with the old base, and the sum wraps (D11; log 12). -/
def Obligations.AdjustAddsToRelativeBase : Prop :=
  ∀ (s : State) (a : Mode), s.Inv → s.Readable 1 a →
    ∃ t, exec (.adjustRelativeBase a) s = .next t ∧ t.rb.toInt = wrapped (s.rb.toInt + (s.operandValue 1 a).toInt) ∧
      t.ip.toInt = s.ip.toInt + 2 ∧ SameCells s t ∧ t.lastOutput = s.lastOutput ∧ SameStatus s t ∧ SameChannels s t

/-- Halt (46_halt.md): STATUS and CAUSE, nothing else; `IP` stays (D17; log 18). -/
def Obligations.HaltEndsTheRun : Prop :=
  ∀ s : State, ∃ t, exec .halt s = .next t ∧ t.status = .halted ∧ t.cause = .halt ∧ t.ip = s.ip ∧ SameCells s t ∧
    t.rb = s.rb ∧ t.lastOutput = s.lastOutput ∧ t.faultInfo = s.faultInfo ∧ t.memLen = s.memLen ∧ SameChannels s t

/-! ### Input without a value, Output without a listener, faults -/

/-- 42_io.md R106 (D17; log 18): on a closed, empty channel Input halts with `CAUSE = InputClosed`, and nothing else
changes. -/
def Obligations.InputOnClosedChannelHalts : Prop :=
  ∀ (s : State) (dst : Mode), s.Writable 1 dst → s.inQ = [] → s.inClosed = true →
    ∃ t, exec (.input dst) s = .next t ∧ t.status = .halted ∧ t.cause = .inputClosed ∧ t.ip = s.ip ∧ SameCells s t ∧
      t.rb = s.rb ∧ t.lastOutput = s.lastOutput ∧ t.faultInfo = s.faultInfo ∧ t.memLen = s.memLen ∧ SameChannels s t

/-- 42_io.md R107 (D21; log 22): on an open, empty channel Input changes nothing; the host lifts the hold by a value,
which is then stored, or by closing, which then halts the run. -/
def Obligations.InputHoldsUntilTheHostActs : Prop :=
  ∀ (s : State) (dst : Mode) (v : Word), s.Inv → s.Writable 1 dst → s.inQ = [] → s.inClosed = false →
    exec (.input dst) s = .next s ∧
      (∃ t, exec (.input dst) (s.hostAppend v) = .next t ∧ OnlyCell s t (s.operandIndex 1 dst).toNat v ∧ t.inQ = [] ∧
        t.ip.toInt = s.ip.toInt + 2) ∧
      (∃ t, exec (.input dst) s.hostCloseInput = .next t ∧ t.status = .halted ∧ t.cause = .inputClosed ∧ t.ip = s.ip)

/-- 42_io.md R109 (D20; log 21): with no listener Output faults; nothing is sent or recorded. -/
def Obligations.OutputWithoutListenerFaults : Prop :=
  ∀ (s : State) (a : Mode), s.Readable 1 a → s.outClosed = true →
    ∃ t, exec (.output a) s = .next t ∧ FaultEntry s t .outputChannelClosed (s.operandValue 1 a).toInt

/-- 60_exceptions.md R152, R157 and 40_execution_cycle.md R73 (D13, D15; logs 14, 16): an instruction reports the first
index that fails, operand by operand, before it looks at a channel or tests a condition, and nothing else changes. -/
def Obligations.FirstBadOperandFaults : Prop :=
  ∀ (s : State) (i : Instr) (a : Int), i.WellFormed → s.firstBadIndex i.operands = some a →
    (a < 0 ∨ a ≥ s.memLen) ∧ ∃ t, exec i s = .next t ∧ FaultEntry s t .outOfBoundsAccess a

/-- 60_exceptions.md R156 (D14; log 15): a step that ends Faulted has changed only the three status registers. -/
def Obligations.FaultsArePrecise : Prop :=
  ∀ s t : State, s.status = .running → step s = .next t → t.status = .faulted →
    t = { s with status := .faulted, cause := t.cause, faultInfo := t.faultInfo }

/-! ### Whole-machine rules -/

/-- The invariant: canonical memory within its bounds, `MEMLEN <= 2^62`, status registers that agree; kept by every step,
also of an implementation with another opcode map. -/
def Obligations.StepKeepsInvariant : Prop :=
  (∀ s t : State, s.Inv → step s = .next t → t.Inv) ∧
    ∀ (map : OpcodeMap) (s t : State), s.Inv → stepWith map s = .next t → t.Inv

/-- 60_exceptions.md R150 to R154 as an invariant: a terminal state shows the instruction that ended its run, at `IP`,
with the recorded cause and information (IP after a halt is D17, after a fault D14; logs 15, 18). -/
def Obligations.StepKeepsEndExplained : Prop :=
  ∀ s t : State, s.Inv → s.EndExplained → step s = .next t → t.EndExplained

/-- What the host may do (10_state.md R22; log 26), whatever the slack: it keeps both invariants; only a reset changes CORE, and sets all of
it (70_reset_and_hazards.md R191); the channels become others only with the start of a run (R193; log 31); and a listener
once gone stays gone, with what was sent left in `OutQ` (42_io.md R104; log 30), and goes only by being dropped. Then what
each act makes of the two channels, all four parts of them: an append adds to an open `InQ` (R100, R102), a close sets
`InClosed`, a take removes the head of `OutQ` while there is a listener (R103; log 30), a dropped listener sets `OutClosed`,
and a plain reset leaves them. -/
def Obligations.HostActionsChangeOnlyTheirPart : Prop :=
  ∀ (s : State) (slack : Nat) (a : HostAction),
    (s.Inv → s.EndExplained → (∀ p, a.program = some p → p.length + slack ≤ 2 ^ 62) →
      (s.hostAct slack a).Inv ∧ (s.hostAct slack a).EndExplained) ∧
    (a.program = none → (s.hostAct slack a).coreView = s.coreView) ∧
    (∀ p, a.program = some p → (s.hostAct slack a).coreView = (s.load slack p).coreView) ∧
    (∀ c, a.binds = some c → (s.hostAct slack a).channels = c) ∧
    (a.binds = none → s.outClosed = true → (s.hostAct slack a).outClosed = true ∧ (s.hostAct slack a).outQ = s.outQ) ∧
    (a.binds = none → a ≠ .dropListener → (s.hostAct slack a).outClosed = s.outClosed) ∧
    (∀ v, a = .append v →
      (s.hostAct slack a).channels = ⟨if s.inClosed then s.inQ else s.inQ ++ [v], s.inClosed, s.outQ, s.outClosed⟩) ∧
    (a = .closeInput → (s.hostAct slack a).channels = ⟨s.inQ, true, s.outQ, s.outClosed⟩) ∧
    (a = .take →
      (s.hostAct slack a).channels = ⟨s.inQ, s.inClosed, if s.outClosed then s.outQ else s.outQ.tail, s.outClosed⟩) ∧
    (a = .dropListener → (s.hostAct slack a).channels = ⟨s.inQ, s.inClosed, s.outQ, true⟩) ∧
    (∀ p, a = .reset p → (s.hostAct slack a).channels = s.channels)

/-- 60_exceptions.md R150: the five ways a run ends, and which instruction or stage each comes from (the Faulted state
and the cause names are D16; log 17). -/
def Obligations.RunsEndInFiveWays : Prop :=
  ∀ s t : State, s.status = .running → step s = .next t → t.status ≠ .running →
    (t.status = .halted ∧ t.cause = .halt ∧ s.fetchInstr = .ok .halt) ∨
    (t.status = .halted ∧ t.cause = .inputClosed ∧ s.inQ = [] ∧ s.inClosed = true ∧
      ∃ d, s.fetchInstr = .ok (.input d)) ∨
    (t.status = .faulted ∧ t.cause = .malformedProgram ∧ t.faultInfo = s.cell s.ip.toInt.toNat ∧
      ∃ e, decode (s.cell s.ip.toInt.toNat) = .error e) ∨
    (t.status = .faulted ∧ t.cause = .outOfBoundsAccess ∧ ∃ a : Int, (a < 0 ∨ a ≥ s.memLen) ∧ t.faultInfo = wrap64 a ∧
      (a = s.ip.toInt ∨ ∃ i, s.fetchInstr = .ok i ∧ s.firstBadIndex i.operands = some a)) ∨
    (t.status = .faulted ∧ t.cause = .outputChannelClosed ∧ s.outClosed = true ∧
      ∃ a, s.fetchInstr = .ok (.output a) ∧ t.faultInfo = s.operandValue 1 a)

/-- 10_state.md section 5: only AdjustRelativeBase changes `RB`, and no step changes `MEMLEN`. -/
def Obligations.OnlyAdjustChangesRelativeBase : Prop :=
  ∀ s t : State, step s = .next t → t.memLen = s.memLen ∧
    (t.rb ≠ s.rb → s.status = .running ∧ ∃ a, s.fetchInstr = .ok (.adjustRelativeBase a))

/-- 10_state.md R15: `LAST_OUTPUT` is not valid after reset, every completed Output and
nothing else writes it (with the value it sends), no instruction reads it, and terminal states keep it. -/
def Obligations.LastOutputIsWrittenOnlyByOutput : Prop :=
  (∀ (s : State) (slack : Nat) (p : List Word), (s.load slack p).lastOutput = none) ∧
    (∀ s t : State, step s = .next t → t.lastOutput ≠ s.lastOutput →
      s.status = .running ∧ t.status = .running ∧ ∃ a, s.fetchInstr = .ok (.output a) ∧
        t.lastOutput = some (s.operandValue 1 a) ∧ t.outQ = s.outQ ++ [s.operandValue 1 a]) ∧
    (∀ (s t : State) (a : Mode), s.status = .running → s.fetchInstr = .ok (.output a) → step s = .next t →
      t.status = .running → t.lastOutput = some (s.operandValue 1 a)) ∧
    (∀ (s : State) (slack : Nat) (a : HostAction), a.program = none → (s.hostAct slack a).lastOutput = s.lastOutput) ∧
    (∀ (s t : State) (x : Option Word), step s = .next t →
      ∃ u, step { s with lastOutput := x } = .next u ∧ withoutLastOutput u = withoutLastOutput t)

/-- 42_io.md section 1 and 60_exceptions.md section 7: CORE closes no channel, takes from `InQ` only by an Input that
completes, and adds to `OutQ` only by an Output that completes. -/
def Obligations.ChannelsChangeOnlyByInputAndOutput : Prop :=
  ∀ s t : State, step s = .next t →
    t.inClosed = s.inClosed ∧ t.outClosed = s.outClosed ∧
      (t.inQ ≠ s.inQ → ∃ d v, s.fetchInstr = .ok (.input d) ∧ s.inQ = v :: t.inQ) ∧
      (t.outQ ≠ s.outQ → ∃ a, s.fetchInstr = .ok (.output a) ∧ t.outQ = s.outQ ++ [s.operandValue 1 a])

/-- 10_state.md section 13: an instruction with a destination changes no cell but the one its destination names, and any
other instruction, like a fetch or decode fault and a terminal state, changes none. -/
def Obligations.StepsWriteOnlyTheirDestination : Prop :=
  ∀ s t : State, s.Inv → step s = .next t →
    (∀ i d, s.fetchInstr = .ok i → i.destination = some d →
      ∀ j, j ≠ (s.operandIndex i.operands.length d).toNat → t.cell j = s.cell j) ∧
    (∀ i, s.fetchInstr = .ok i → i.destination = none → SameCells s t) ∧
    (∀ e, s.fetchInstr = .error e → SameCells s t) ∧ (s.status ≠ .running → SameCells s t)

/-- 40_execution_cycle.md R83 (marked there as derived): what a step does to CORE depends on CORE's state, on what
`InPoll` answers and on whether the listener is gone, and on nothing else of the channels. -/
def Obligations.CoreDependsOnlyOnPollAndListener : Prop :=
  ∀ s s' t : State, s.coreView = s'.coreView → s.inPoll = s'.inPoll → s.outClosed = s'.outClosed → step s = .next t →
    ∃ t', step s' = .next t' ∧ t'.coreView = t.coreView

/-- 20_memory.md section 10: what each of the five storing instructions stores into the next instruction's word is what
the next fetch reads (1 and 0 are R132's, D12; log 13). -/
def Obligations.StoreIsSeenByTheNextFetch : Prop :=
  (∀ (s : State) (a b dst : Mode), s.Inv → s.Readable 1 a → s.Readable 2 b → s.Writable 3 dst →
    s.operandIndex 3 dst = s.ip.toInt + 4 →
    NextFetchReads (.add a b dst) s (wrapped ((s.operandValue 1 a).toInt + (s.operandValue 2 b).toInt)) ∧
      NextFetchReads (.multiply a b dst) s (wrapped ((s.operandValue 1 a).toInt * (s.operandValue 2 b).toInt)) ∧
      NextFetchReads (.lessThan a b dst) s (if (s.operandValue 1 a).toInt < (s.operandValue 2 b).toInt then 1 else 0) ∧
      NextFetchReads (.equals a b dst) s (if (s.operandValue 1 a).toInt = (s.operandValue 2 b).toInt then 1 else 0)) ∧
  ∀ (s : State) (dst : Mode) (v : Word) (rest : List Word), s.Inv → s.Writable 1 dst → s.inQ = v :: rest →
    s.operandIndex 1 dst = s.ip.toInt + 2 → NextFetchReads (.input dst) s v.toInt

/-! ### Registers as the host sees them, channels, several machines -/

/-- 10_state.md R16, R17 (the codes are the spec's own, D16; log 17). -/
def Obligations.StatusAndCauseCodes : Prop :=
  Status.running.code = 0 ∧ Status.halted.code = 1 ∧ Status.faulted.code = 2 ∧ Cause.none.code = 0 ∧
    Cause.halt.code = 1 ∧ Cause.inputClosed.code = 2 ∧ Cause.malformedProgram.code = 3 ∧
    Cause.outOfBoundsAccess.code = 4 ∧ Cause.outputChannelClosed.code = 5

/-- 10_state.md R22 (D27; log 26): the host inspects terminal states, all of CORE's state, and no running machine. -/
def Obligations.InspectOnlyTerminalStates : Prop :=
  ∀ s : State, (s.status = .running → s.inspect = none) ∧ (s.status ≠ .running → s.inspect = some s.coreView)

/-- 42_io.md R101: what `InPoll` answers, and that the value taken is the head it showed. -/
def Obligations.InPollShowsHeadEmptyOrClosed : Prop :=
  ∀ s : State,
    (∀ v, s.inPoll = .value v ↔ ∃ rest, s.inQ = v :: rest) ∧
      (s.inPoll = .empty ↔ s.inQ = [] ∧ s.inClosed = false) ∧
      (s.inPoll = .closed ↔ s.inQ = [] ∧ s.inClosed = true) ∧
      ∀ v, s.inPoll = .value v → s.inQ = v :: s.inTake.inQ

/-- 42_io.md R102: closed stays closed, for CORE and for every act of the host on this channel, and nothing is appended
after. An act that binds other channels is not one on this channel. -/
def Obligations.ClosedInputStaysClosed : Prop :=
  ∀ s : State, s.inClosed = true →
    (∀ t, step s = .next t → t.inClosed = true) ∧ (∀ slack (a : HostAction), a.binds = none → (s.hostAct slack a).inClosed = true) ∧
      ∀ v, (s.hostAppend v).inQ = s.inQ

/-- 42_io.md section 1: the values appended, by the host on one side and by CORE on the other, stand in the order they
were appended, and the head is taken first. -/
def Obligations.ChannelsAreFifo : Prop :=
  (∀ (s : State) (vs : List Word), s.inClosed = false → (vs.foldl State.hostAppend s).inQ = s.inQ ++ vs) ∧
  (∀ (s : State) (v : Word) (rest : List Word), s.inQ = v :: rest → s.inPoll = .value v ∧ s.inTake.inQ = rest) ∧
  (∀ (s : State) (vs : List Word), s.outClosed = false → ∃ t, vs.foldlM State.outSend s = some t ∧ t.outQ = s.outQ ++ vs) ∧
  (∀ (s : State) (v : Word) (rest : List Word), s.outClosed = false → s.outQ = v :: rest →
    ∃ t, s.hostTake = some (v, t) ∧ t.outQ = rest)

/-- 60_exceptions.md section 7 (the ring is the environment's, D25; log 27): in a ring of at least two machines that
meets the ring invariant, a step of machine `i` moves what it sends to the input queue of the next machine, closes that
input only if the run of `i` has ended and the host holds no sender, sends nothing into a closed one, and changes no
other machine: nobody loses a listener. -/
def Obligations.RingStepDeliversDownstream : Prop :=
  ∀ (net : Network) (map : OpcodeMap) (i : Nat) (n d : Node) (t : State), 2 ≤ net.length → net.Inv → net[i]? = some n →
    net[(i + 1) % net.length]? = some d → stepWith map n.core = .next t →
    ∃ n' d' : Node, (net.stepAt map i)[i]? = some n' ∧ (net.stepAt map i)[(i + 1) % net.length]? = some d' ∧
      (∀ k, k ≠ i → k ≠ (i + 1) % net.length → (net.stepAt map i)[k]? = net[k]?) ∧
      n'.core.coreView = t.coreView ∧ n'.core.inQ = t.inQ ∧ n'.core.inClosed = n.core.inClosed ∧ n'.core.outQ = [] ∧
      n'.core.outClosed = n.core.outClosed ∧ n'.hostSends = n.hostSends ∧ n'.upstreamEnded = n.upstreamEnded ∧
      d'.core.coreView = d.core.coreView ∧ d'.core.inQ = d.core.inQ ++ t.outQ ∧ d'.core.outQ = d.core.outQ ∧
      d'.core.outClosed = d.core.outClosed ∧ d'.hostSends = d.hostSends ∧
      (d'.upstreamEnded = true ↔ t.status ≠ .running) ∧
      (d'.core.inClosed = true ↔ d.hostSends = false ∧ t.status ≠ .running) ∧
      (d.core.inClosed = true → t.outQ = [])

/-- 60_exceptions.md R183 (marked there as derived; D25): a network whose machines are all held does not move. -/
def Obligations.DeadlockedNetworkIsStuck : Prop :=
  ∀ (net : Network) (map : OpcodeMap) (i : Nat), net.deadlocked map = true → (∀ n ∈ net, n.core.outQ = [] ∧ n.settle = n) →
    net.stepAt map i = net

/-- 60_exceptions.md section 7 (the ring is the environment's, D25; log 27): the ring invariant holds of a fresh ring and
every event, a step of a machine or an act of the host, keeps it. -/
def Obligations.RingEventsKeepRingInvariant : Prop :=
  (∀ (slack : Nat) (programs : List (List Word)), (Network.build slack programs).Inv) ∧
    ∀ (net : Network) (map : OpcodeMap) (e : NetEvent), net.Inv → (net.event map e).Inv
end

