-- ==== Sys2Proof/Laws/Word.lean ====
section
/-! SUPPORT. What `wrap64` does, and the ALU operations in terms of it. -/

namespace Sys2Proof.Machine

/-- `wrap64` read as a signed number, as 00_scope.md section 5 defines it. -/
theorem wrap64_toInt (v : Int) : (wrap64 v).toInt = (v + 2 ^ 63) % 2 ^ 64 - 2 ^ 63 := by
  unfold wrap64
  rw [BitVec.toInt_ofInt, Int.bmod_def]
  norm_num
  split <;> omega

theorem wrap64_toInt_of_range {v : Int} (h1 : -2 ^ 63 ≤ v) (h2 : v < 2 ^ 63) : (wrap64 v).toInt = v := by
  rw [wrap64_toInt]; omega

@[simp] theorem wrap64_toInt_self (w : Word) : wrap64 w.toInt = w := by
  simp [wrap64]

theorem word_toInt_lower (w : Word) : -2 ^ 63 ≤ w.toInt := by
  have := BitVec.le_toInt w; simpa using this

theorem word_toInt_upper (w : Word) : w.toInt < 2 ^ 63 := by
  have := BitVec.toInt_lt (x := w); simpa using this

theorem word_toInt_inj {v w : Word} : v.toInt = w.toInt ↔ v = w :=
  BitVec.toInt_inj

/-- A word whose signed reading is not negative reads the same unsigned. -/
theorem word_toInt_eq_toNat {w : Word} (h : 0 ≤ w.toInt) : w.toInt = w.toNat := by
  have h1 := BitVec.toInt_eq_toNat_cond w
  have h2 := w.isLt
  split at h1 <;> omega

theorem addValue_toInt (a b : Word) : (addValue a b).toInt = (a.toInt + b.toInt + 2 ^ 63) % 2 ^ 64 - 2 ^ 63 :=
  wrap64_toInt _

theorem multiplyValue_toInt (a b : Word) :
    (multiplyValue a b).toInt = (a.toInt * b.toInt + 2 ^ 63) % 2 ^ 64 - 2 ^ 63 :=
  wrap64_toInt _

theorem addValue_eq_add (a b : Word) : addValue a b = a + b := by
  simp [addValue, wrap64, BitVec.ofInt_add]

theorem multiplyValue_eq_mul (a b : Word) : multiplyValue a b = a * b := by
  simp [multiplyValue, wrap64, BitVec.ofInt_mul]

theorem lessThanValue_toInt (a b : Word) : (lessThanValue a b).toInt = if a.toInt < b.toInt then 1 else 0 := by
  unfold lessThanValue truthValue
  by_cases h : a.toInt < b.toInt <;> simp [h]

theorem equalsValue_toInt (a b : Word) : (equalsValue a b).toInt = if a = b then 1 else 0 := by
  unfold equalsValue truthValue
  by_cases h : a = b <;> simp [h, BitVec.toInt_inj]

theorem isTrue_iff (a : Word) : isTrue a = true ↔ a.toInt ≠ 0 := by
  simp [isTrue]

theorem isFalse_iff (a : Word) : isFalse a = true ↔ a.toInt = 0 := by
  simp [isFalse]

end Sys2Proof.Machine
end

