-- ==== Sys2Proof/Laws/Decode.lean ====
section
/-! SUPPORT. The decimal fields of an instruction word, what the decoder accepts, and what it answers. -/

namespace Sys2Proof

@[simp] theorem Mode.ofDigit_digit (m : Mode) : Mode.ofDigit m.digit = some m := by
  cases m <;> rfl

theorem Mode.digit_of_ofDigit {d : Nat} {m : Mode} (h : Mode.ofDigit d = some m) : m.digit = d := by
  unfold Mode.ofDigit at h
  split at h <;> cases h <;> rfl

theorem Mode.ofDigit_eq_none_iff {d : Nat} : Mode.ofDigit d = none ↔ 2 < d := by
  unfold Mode.ofDigit
  split <;> simp_all
  omega

theorem Mode.digit_le (m : Mode) : m.digit ≤ 2 := by
  cases m <;> decide

theorem digit_lt (w p : Nat) : digit w p < 10 :=
  Nat.mod_lt _ (by decide)

theorem digit_two (w : Nat) : digit w 2 = w / 100 % 10 := rfl

theorem digit_three (w : Nat) : digit w 3 = w / 1000 % 10 := rfl

theorem digit_four (w : Nat) : digit w 4 = w / 10000 % 10 := rfl

/-- The fields of a word built from them, whatever stands above the `10^5` place. -/
theorem wordOf_fields {n a b c : Nat} (h : Nat) (hn : n < 100) (ha : a < 10) (hb : b < 10) (hc : c < 10) :
    (wordOf n a b c + 100000 * h) % 100 = n ∧ digit (wordOf n a b c + 100000 * h) 2 = a ∧
      digit (wordOf n a b c + 100000 * h) 3 = b ∧ digit (wordOf n a b c + 100000 * h) 4 = c := by
  rw [digit_two, digit_three, digit_four]
  unfold wordOf
  omega

theorem OpcodeMap.wf_iff (map : OpcodeMap) :
    map.wf = true ↔ ∀ op, map.numberOf op < 100 ∧ map.opcodeOf (map.numberOf op) = some op := by
  unfold OpcodeMap.wf
  rw [List.all_eq_true]
  constructor
  · intro h op
    have hop : op ∈ Opcode.all := by cases op <;> decide
    simpa using h op hop
  · intro h op _
    simpa using h op

theorem opcodeMap_wf : opcodeMap.wf = true := by decide

/-- Where the table has a number, it is the number of the opcode it stands for. -/
theorem opcodeMap_numberOf {n : Nat} {op : Opcode} (h : opcodeMap.opcodeOf n = some op) : opcodeMap.numberOf op = n := by
  unfold opcodeMap at h
  simp only [OpcodeMap.opcodeOf] at h
  repeat' split at h
  all_goals first | (cases h; subst_vars; rfl) | cases h

/-- Everything the decoder accepts, field by field (30_encoding.md R55). -/
theorem decodeFields_ok_iff {map : OpcodeMap} {w : Word} {d : Decoded} :
    decodeFields map w = .ok d ↔
      0 ≤ w.toInt ∧ map.opcodeOf (w.toNat % 100) = some d.op ∧ Mode.ofDigit (digit w.toNat 2) = some d.mode1 ∧
        Mode.ofDigit (digit w.toNat 3) = some d.mode2 ∧ Mode.ofDigit (digit w.toNat 4) = some d.mode3 ∧
        d.destination ≠ some .immediate := by
  unfold decodeFields
  by_cases hneg : w.toInt < 0
  · rw [if_pos hneg]
    constructor
    · intro h; cases h
    · intro h; omega
  · rw [if_neg hneg]
    cases hop : map.opcodeOf (w.toNat % 100) with
    | none => simp
    | some op =>
      simp only []
      generalize Mode.ofDigit (digit w.toNat 2) = x
      generalize Mode.ofDigit (digit w.toNat 3) = y
      generalize Mode.ofDigit (digit w.toNat 4) = z
      cases x with
      | none => simp
      | some a =>
        cases y with
        | none => simp
        | some b =>
          cases z with
          | none => simp
          | some c =>
            simp only []
            by_cases hd : Decoded.destination ⟨op, a, b, c⟩ = some .immediate
            · rw [if_pos hd]
              constructor
              · intro h; cases h
              · rintro ⟨-, h0, h1, h2, h3, h⟩
                cases h0; cases h1; cases h2; cases h3
                exact absurd hd h
            · rw [if_neg hd]
              constructor
              · intro h; cases h
                exact ⟨by omega, rfl, rfl, rfl, rfl, hd⟩
              · rintro ⟨-, h0, h1, h2, h3, -⟩
                cases h0; cases h1; cases h2; cases h3
                rfl

theorem decodeWith_ok_iff {map : OpcodeMap} {w : Word} {i : Instr} :
    decodeWith map w = .ok i ↔ ∃ d, decodeFields map w = .ok d ∧ d.instr = i := by
  unfold decodeWith
  cases decodeFields map w with
  | error e => simp
  | ok d => simp

theorem Decoded.instr_destination (d : Decoded) : d.instr.destination = d.destination := by
  obtain ⟨op, a, b, c⟩ := d
  cases op <;> rfl

theorem Decoded.instr_opcode (d : Decoded) : d.instr.opcode = d.op := by
  obtain ⟨op, a, b, c⟩ := d
  cases op <;> rfl

/-- The decoder answers well-formed instructions only. -/
theorem decodeWith_wellFormed {map : OpcodeMap} {w : Word} {i : Instr} (h : decodeWith map w = .ok i) :
    i.WellFormed := by
  obtain ⟨d, hd, rfl⟩ := decodeWith_ok_iff.mp h
  have := (decodeFields_ok_iff.mp hd).2.2.2.2.2
  simpa [Instr.WellFormed, Instr.wf, Decoded.instr_destination] using this

theorem decode_wellFormed {w : Word} {i : Instr} (h : decode w = .ok i) : i.WellFormed :=
  decodeWith_wellFormed h

/-- An instruction is rebuilt from its opcode and its modes. -/
theorem Instr.rebuild (i : Instr) : Decoded.instr ⟨i.opcode, i.modes.1, i.modes.2.1, i.modes.2.2⟩ = i := by
  cases i <;> rfl

theorem Instr.wf_destination {i : Instr} (h : i.WellFormed) : i.destination ≠ some .immediate := by
  simpa [Instr.WellFormed, Instr.wf] using h

end Sys2Proof
end

