-- ==== Sys2Proof/Laws/Memory.lean ====
section
/-! SUPPORT. Memory: reading after writing, and that every operation keeps the canonical form. -/

namespace Sys2Proof.Machine

theorem Memory.wfFrom_cons {lo i : Nat} {v : Word} {m : Memory} :
    Memory.wfFrom lo ((i, v) :: m) = true ↔ lo ≤ i ∧ v ≠ 0#64 ∧ Memory.wfFrom (i + 1) m = true := by
  simp [Memory.wfFrom, and_assoc]

theorem Memory.wfFrom_mono {lo lo' : Nat} (h : lo' ≤ lo) :
    ∀ {m : Memory}, Memory.wfFrom lo m = true → Memory.wfFrom lo' m = true
  | [], _ => rfl
  | (_, _) :: _, hm => by
    rw [Memory.wfFrom_cons] at hm ⊢
    exact ⟨h.trans hm.1, hm.2⟩

/-- Below the first listed cell every cell holds 0. -/
theorem Memory.read_of_lt : ∀ {m : Memory} {lo i : Nat}, m.wfFrom lo = true → i < lo → m.read i = 0#64
  | [], _, _, _, _ => rfl
  | (j, w) :: rest, lo, i, hm, hi => by
    obtain ⟨h1, -, h3⟩ := Memory.wfFrom_cons.mp hm
    rw [Memory.read, if_neg (by omega)]
    exact Memory.read_of_lt h3 (by omega)

theorem Memory.read_write_from :
    ∀ {m : Memory} {lo : Nat}, m.wfFrom lo = true → ∀ (i j : Nat) (v : Word),
      (m.write i v).read j = if j = i then v else m.read j
  | [], _, _, i, j, v => by
    unfold Memory.write
    by_cases hv : v = 0#64 <;> simp [hv, Memory.read]
  | (k, w) :: rest, lo, hm, i, j, v => by
    obtain ⟨-, -, h3⟩ := Memory.wfFrom_cons.mp hm
    have below : ∀ {x : Nat}, x ≤ k → Memory.read rest x = 0#64 := fun hx => Memory.read_of_lt h3 (by omega)
    rcases lt_trichotomy i k with h | h | h
    · by_cases hv : v = 0#64
      · by_cases hj : j = i
        · subst hj
          simp [Memory.write, Memory.read, h, hv, h.ne, below h.le]
        · simp [Memory.write, Memory.read, h, hv, hj]
      · by_cases hj : j = i <;> simp [Memory.write, Memory.read, h, hv, hj]
    · subst h
      by_cases hv : v = 0#64
      · by_cases hj : j = i
        · simp [Memory.write, hv, hj, below le_rfl]
        · simp [Memory.write, Memory.read, hv, hj]
      · by_cases hj : j = i <;> simp [Memory.write, Memory.read, hv, hj]
    · have ih := Memory.read_write_from h3 i j v
      by_cases hj : j = k
      · subst hj
        simp [Memory.write, Memory.read, h.ne, h.ne', Nat.not_lt.mpr h.le]
      · simp [Memory.write, Memory.read, h.ne', Nat.not_lt.mpr h.le, hj, ih]

/-- A write sets its own cell and no other. -/
theorem Memory.read_write {m : Memory} (h : m.wf = true) (i j : Nat) (v : Word) :
    (m.write i v).read j = if j = i then v else m.read j :=
  Memory.read_write_from h i j v

theorem Memory.wfFrom_write :
    ∀ {m : Memory} {lo i : Nat} (v : Word), m.wfFrom lo = true → lo ≤ i → (m.write i v).wfFrom lo = true
  | [], lo, i, v, _, hi => by
    unfold Memory.write
    by_cases hv : v = 0#64 <;> simp [hv, Memory.wfFrom, hi]
  | (k, w) :: rest, lo, i, v, hm, hi => by
    obtain ⟨h1, h2, h3⟩ := Memory.wfFrom_cons.mp hm
    rcases lt_trichotomy i k with h | h | h
    · by_cases hv : v = 0#64
      · simpa [Memory.write, h, hv] using hm
      · simp only [Memory.write, h, hv, if_true, if_false]
        exact Memory.wfFrom_cons.mpr ⟨hi, hv, Memory.wfFrom_cons.mpr ⟨h, h2, h3⟩⟩
    · subst h
      by_cases hv : v = 0#64
      · simpa [Memory.write, hv] using Memory.wfFrom_mono (by omega : lo ≤ i + 1) h3
      · simpa [Memory.write, hv] using Memory.wfFrom_cons.mpr ⟨hi, hv, h3⟩
    · simp only [Memory.write, Nat.not_lt.mpr h.le, h.ne', if_false]
      exact Memory.wfFrom_cons.mpr ⟨h1, h2, Memory.wfFrom_write v h3 h⟩

/-- A write keeps the canonical form. -/
theorem Memory.wf_write {m : Memory} (h : m.wf = true) (i : Nat) (v : Word) : (m.write i v).wf = true :=
  Memory.wfFrom_write v h (Nat.zero_le i)

/-- A write lists no cell but its own that was not listed. -/
theorem Memory.mem_write {c : Nat × Word} : ∀ {m : Memory} {i : Nat} {v : Word}, c ∈ m.write i v → c ∈ m ∨ c.1 = i
  | [], i, v, h => by
    unfold Memory.write at h
    by_cases hv : v = 0#64
    · simp [hv] at h
    · rw [if_neg hv, List.mem_singleton] at h
      exact .inr (by rw [h])
  | (k, w) :: rest, i, v, h => by
    simp only [Memory.write] at h
    split at h
    · split at h
      · exact .inl h
      · rcases List.mem_cons.mp h with rfl | h'
        · exact .inr rfl
        · exact .inl h'
    · split at h
      · split at h
        · exact .inl (List.mem_cons_of_mem _ h)
        · rcases List.mem_cons.mp h with rfl | h'
          · exact .inr rfl
          · exact .inl (List.mem_cons_of_mem _ h')
      · rcases List.mem_cons.mp h with rfl | h'
        · exact .inl List.mem_cons_self
        · rcases Memory.mem_write h' with h'' | h''
          · exact .inl (List.mem_cons_of_mem _ h'')
          · exact .inr h''

/-- Listed cells, and only they, read as something other than 0. -/
theorem Memory.read_eq_zero_of_not_listed : ∀ {m : Memory} {i : Nat}, (∀ c ∈ m, c.1 ≠ i) → m.read i = 0#64
  | [], _, _ => rfl
  | (j, w) :: rest, i, h => by
    have hj : i ≠ j := fun e => h (j, w) List.mem_cons_self e.symm
    rw [Memory.read, if_neg hj]
    exact Memory.read_eq_zero_of_not_listed fun c hc => h c (List.mem_cons_of_mem _ hc)

theorem Memory.wfFrom_ofCells : ∀ (p : List Word) (i : Nat), (Memory.ofCells i p).wfFrom i = true
  | [], _ => rfl
  | v :: rest, i => by
    have ih := Memory.wfFrom_ofCells rest (i + 1)
    by_cases hv : v = 0#64
    · simpa [Memory.ofCells, hv] using Memory.wfFrom_mono (Nat.le_succ i) ih
    · simpa [Memory.ofCells, hv] using Memory.wfFrom_cons.mpr ⟨le_rfl, hv, ih⟩

/-- A loaded program is in canonical form. -/
theorem Memory.wf_ofCells (p : List Word) : (Memory.ofCells 0 p).wf = true :=
  Memory.wfFrom_ofCells p 0

theorem Memory.mem_ofCells {c : Nat × Word} :
    ∀ {p : List Word} {i : Nat}, c ∈ Memory.ofCells i p → i ≤ c.1 ∧ c.1 < i + p.length
  | [], _, h => by simp [Memory.ofCells] at h
  | v :: rest, i, h => by
    have step : c ∈ Memory.ofCells (i + 1) rest → i ≤ c.1 ∧ c.1 < i + (v :: rest).length := fun h' => by
      have := Memory.mem_ofCells h'
      simp only [List.length_cons]
      omega
    simp only [Memory.ofCells] at h
    split at h
    · exact step h
    · rcases List.mem_cons.mp h with rfl | h'
      · simp
      · exact step h'

/-- A loaded program reads back cell by cell, zeros after it. -/
theorem Memory.read_ofCells : ∀ (p : List Word) (i j : Nat), (Memory.ofCells i p).read (i + j) = p.getD j 0#64
  | [], _, _ => rfl
  | v :: rest, i, j => by
    have ih := Memory.read_ofCells rest (i + 1)
    have first : (Memory.ofCells (i + 1) rest).read i = 0#64 :=
      Memory.read_of_lt (Memory.wfFrom_ofCells rest (i + 1)) (Nat.lt_succ_self i)
    cases j with
    | zero => by_cases hv : v = 0#64 <;> simp [Memory.ofCells, Memory.read, hv, first]
    | succ j =>
      have ihj := ih j
      rw [show i + 1 + j = i + (j + 1) from by omega] at ihj
      by_cases hv : v = 0#64 <;> simp_all [Memory.ofCells, Memory.read]

/-! ### The same of a state's cells -/

theorem State.cell_setCell {s : State} (h : s.mem.wf = true) (i j : Nat) (v : Word) :
    (s.setCell i v).cell j = if j = i then v else s.cell j :=
  Memory.read_write h i j v

/-- Everything `MemRead` can do (20_memory.md R32). -/
theorem State.memRead_eq (s : State) (a : Int) :
    s.memRead a = if s.InBounds a then .ok (s.cell a.toNat) else .error (.outOfBoundsAccess a) := by
  unfold State.memRead State.InBounds
  by_cases h : a < 0 ∨ a ≥ s.memLen
  · rw [if_pos h, if_neg (by omega)]
  · rw [if_neg h, if_pos (by omega)]

/-- Everything `MemWrite` can do (20_memory.md R33). -/
theorem State.memWrite_eq (s : State) (a : Int) (v : Word) :
    s.memWrite a v = if s.InBounds a then .ok (s.setCell a.toNat v) else .error (.outOfBoundsAccess a) := by
  unfold State.memWrite State.InBounds
  by_cases h : a < 0 ∨ a ≥ s.memLen
  · rw [if_pos h, if_neg (by omega)]
  · rw [if_neg h, if_pos (by omega)]

end Sys2Proof.Machine
end

