-- ==== Sys2Proof/Laws/State.lean ====
section
/-! SUPPORT. One lemma per field per update of the state, so that no proof unfolds a record update. -/

namespace Sys2Proof.Machine

/-! ### setCell -/

@[simp] theorem State.setCell_mem (s : State) (i : Nat) (v : Word) : (s.setCell i v).mem = s.mem.write i v := rfl
@[simp] theorem State.setCell_memLen (s : State) (i : Nat) (v : Word) : (s.setCell i v).memLen = s.memLen := rfl
@[simp] theorem State.setCell_ip (s : State) (i : Nat) (v : Word) : (s.setCell i v).ip = s.ip := rfl
@[simp] theorem State.setCell_rb (s : State) (i : Nat) (v : Word) : (s.setCell i v).rb = s.rb := rfl
@[simp] theorem State.setCell_lastOutput (s : State) (i : Nat) (v : Word) : (s.setCell i v).lastOutput = s.lastOutput := rfl
@[simp] theorem State.setCell_status (s : State) (i : Nat) (v : Word) : (s.setCell i v).status = s.status := rfl
@[simp] theorem State.setCell_cause (s : State) (i : Nat) (v : Word) : (s.setCell i v).cause = s.cause := rfl
@[simp] theorem State.setCell_faultInfo (s : State) (i : Nat) (v : Word) : (s.setCell i v).faultInfo = s.faultInfo := rfl
@[simp] theorem State.setCell_inQ (s : State) (i : Nat) (v : Word) : (s.setCell i v).inQ = s.inQ := rfl
@[simp] theorem State.setCell_inClosed (s : State) (i : Nat) (v : Word) : (s.setCell i v).inClosed = s.inClosed := rfl
@[simp] theorem State.setCell_outQ (s : State) (i : Nat) (v : Word) : (s.setCell i v).outQ = s.outQ := rfl
@[simp] theorem State.setCell_outClosed (s : State) (i : Nat) (v : Word) : (s.setCell i v).outClosed = s.outClosed := rfl

/-! ### jumpTo -/

@[simp] theorem State.jumpTo_mem (s : State) (v : Word) : (s.jumpTo v).mem = s.mem := rfl
@[simp] theorem State.jumpTo_memLen (s : State) (v : Word) : (s.jumpTo v).memLen = s.memLen := rfl
@[simp] theorem State.jumpTo_ip (s : State) (v : Word) : (s.jumpTo v).ip = v := rfl
@[simp] theorem State.jumpTo_rb (s : State) (v : Word) : (s.jumpTo v).rb = s.rb := rfl
@[simp] theorem State.jumpTo_lastOutput (s : State) (v : Word) : (s.jumpTo v).lastOutput = s.lastOutput := rfl
@[simp] theorem State.jumpTo_status (s : State) (v : Word) : (s.jumpTo v).status = s.status := rfl
@[simp] theorem State.jumpTo_cause (s : State) (v : Word) : (s.jumpTo v).cause = s.cause := rfl
@[simp] theorem State.jumpTo_faultInfo (s : State) (v : Word) : (s.jumpTo v).faultInfo = s.faultInfo := rfl
@[simp] theorem State.jumpTo_inQ (s : State) (v : Word) : (s.jumpTo v).inQ = s.inQ := rfl
@[simp] theorem State.jumpTo_inClosed (s : State) (v : Word) : (s.jumpTo v).inClosed = s.inClosed := rfl
@[simp] theorem State.jumpTo_outQ (s : State) (v : Word) : (s.jumpTo v).outQ = s.outQ := rfl
@[simp] theorem State.jumpTo_outClosed (s : State) (v : Word) : (s.jumpTo v).outClosed = s.outClosed := rfl

/-! ### advance -/

@[simp] theorem State.advance_mem (s : State) (d : Nat) : (s.advance d).mem = s.mem := rfl
@[simp] theorem State.advance_memLen (s : State) (d : Nat) : (s.advance d).memLen = s.memLen := rfl
@[simp] theorem State.advance_ip (s : State) (d : Nat) : (s.advance d).ip = wrap64 (s.ip.toInt + d) := rfl
@[simp] theorem State.advance_rb (s : State) (d : Nat) : (s.advance d).rb = s.rb := rfl
@[simp] theorem State.advance_lastOutput (s : State) (d : Nat) : (s.advance d).lastOutput = s.lastOutput := rfl
@[simp] theorem State.advance_status (s : State) (d : Nat) : (s.advance d).status = s.status := rfl
@[simp] theorem State.advance_cause (s : State) (d : Nat) : (s.advance d).cause = s.cause := rfl
@[simp] theorem State.advance_faultInfo (s : State) (d : Nat) : (s.advance d).faultInfo = s.faultInfo := rfl
@[simp] theorem State.advance_inQ (s : State) (d : Nat) : (s.advance d).inQ = s.inQ := rfl
@[simp] theorem State.advance_inClosed (s : State) (d : Nat) : (s.advance d).inClosed = s.inClosed := rfl
@[simp] theorem State.advance_outQ (s : State) (d : Nat) : (s.advance d).outQ = s.outQ := rfl
@[simp] theorem State.advance_outClosed (s : State) (d : Nat) : (s.advance d).outClosed = s.outClosed := rfl

/-! ### setRb -/

@[simp] theorem State.setRb_mem (s : State) (v : Word) : (s.setRb v).mem = s.mem := rfl
@[simp] theorem State.setRb_memLen (s : State) (v : Word) : (s.setRb v).memLen = s.memLen := rfl
@[simp] theorem State.setRb_ip (s : State) (v : Word) : (s.setRb v).ip = s.ip := rfl
@[simp] theorem State.setRb_rb (s : State) (v : Word) : (s.setRb v).rb = v := rfl
@[simp] theorem State.setRb_lastOutput (s : State) (v : Word) : (s.setRb v).lastOutput = s.lastOutput := rfl
@[simp] theorem State.setRb_status (s : State) (v : Word) : (s.setRb v).status = s.status := rfl
@[simp] theorem State.setRb_cause (s : State) (v : Word) : (s.setRb v).cause = s.cause := rfl
@[simp] theorem State.setRb_faultInfo (s : State) (v : Word) : (s.setRb v).faultInfo = s.faultInfo := rfl
@[simp] theorem State.setRb_inQ (s : State) (v : Word) : (s.setRb v).inQ = s.inQ := rfl
@[simp] theorem State.setRb_inClosed (s : State) (v : Word) : (s.setRb v).inClosed = s.inClosed := rfl
@[simp] theorem State.setRb_outQ (s : State) (v : Word) : (s.setRb v).outQ = s.outQ := rfl
@[simp] theorem State.setRb_outClosed (s : State) (v : Word) : (s.setRb v).outClosed = s.outClosed := rfl

/-! ### setLastOutput -/

@[simp] theorem State.setLastOutput_mem (s : State) (v : Word) : (s.setLastOutput v).mem = s.mem := rfl
@[simp] theorem State.setLastOutput_memLen (s : State) (v : Word) : (s.setLastOutput v).memLen = s.memLen := rfl
@[simp] theorem State.setLastOutput_ip (s : State) (v : Word) : (s.setLastOutput v).ip = s.ip := rfl
@[simp] theorem State.setLastOutput_rb (s : State) (v : Word) : (s.setLastOutput v).rb = s.rb := rfl
@[simp] theorem State.setLastOutput_lastOutput (s : State) (v : Word) : (s.setLastOutput v).lastOutput = some v := rfl
@[simp] theorem State.setLastOutput_status (s : State) (v : Word) : (s.setLastOutput v).status = s.status := rfl
@[simp] theorem State.setLastOutput_cause (s : State) (v : Word) : (s.setLastOutput v).cause = s.cause := rfl
@[simp] theorem State.setLastOutput_faultInfo (s : State) (v : Word) : (s.setLastOutput v).faultInfo = s.faultInfo := rfl
@[simp] theorem State.setLastOutput_inQ (s : State) (v : Word) : (s.setLastOutput v).inQ = s.inQ := rfl
@[simp] theorem State.setLastOutput_inClosed (s : State) (v : Word) : (s.setLastOutput v).inClosed = s.inClosed := rfl
@[simp] theorem State.setLastOutput_outQ (s : State) (v : Word) : (s.setLastOutput v).outQ = s.outQ := rfl
@[simp] theorem State.setLastOutput_outClosed (s : State) (v : Word) : (s.setLastOutput v).outClosed = s.outClosed := rfl

/-! ### haltWith -/

@[simp] theorem State.haltWith_mem (s : State) (c : Cause) : (s.haltWith c).mem = s.mem := rfl
@[simp] theorem State.haltWith_memLen (s : State) (c : Cause) : (s.haltWith c).memLen = s.memLen := rfl
@[simp] theorem State.haltWith_ip (s : State) (c : Cause) : (s.haltWith c).ip = s.ip := rfl
@[simp] theorem State.haltWith_rb (s : State) (c : Cause) : (s.haltWith c).rb = s.rb := rfl
@[simp] theorem State.haltWith_lastOutput (s : State) (c : Cause) : (s.haltWith c).lastOutput = s.lastOutput := rfl
@[simp] theorem State.haltWith_status (s : State) (c : Cause) : (s.haltWith c).status = .halted := rfl
@[simp] theorem State.haltWith_cause (s : State) (c : Cause) : (s.haltWith c).cause = c := rfl
@[simp] theorem State.haltWith_faultInfo (s : State) (c : Cause) : (s.haltWith c).faultInfo = s.faultInfo := rfl
@[simp] theorem State.haltWith_inQ (s : State) (c : Cause) : (s.haltWith c).inQ = s.inQ := rfl
@[simp] theorem State.haltWith_inClosed (s : State) (c : Cause) : (s.haltWith c).inClosed = s.inClosed := rfl
@[simp] theorem State.haltWith_outQ (s : State) (c : Cause) : (s.haltWith c).outQ = s.outQ := rfl
@[simp] theorem State.haltWith_outClosed (s : State) (c : Cause) : (s.haltWith c).outClosed = s.outClosed := rfl

/-! ### takeFault -/

@[simp] theorem State.takeFault_mem (s : State) (e : Raised) : (s.takeFault e).mem = s.mem := rfl
@[simp] theorem State.takeFault_memLen (s : State) (e : Raised) : (s.takeFault e).memLen = s.memLen := rfl
@[simp] theorem State.takeFault_ip (s : State) (e : Raised) : (s.takeFault e).ip = s.ip := rfl
@[simp] theorem State.takeFault_rb (s : State) (e : Raised) : (s.takeFault e).rb = s.rb := rfl
@[simp] theorem State.takeFault_lastOutput (s : State) (e : Raised) : (s.takeFault e).lastOutput = s.lastOutput := rfl
@[simp] theorem State.takeFault_status (s : State) (e : Raised) : (s.takeFault e).status = .faulted := rfl
@[simp] theorem State.takeFault_cause (s : State) (e : Raised) : (s.takeFault e).cause = e.cause := rfl
@[simp] theorem State.takeFault_faultInfo (s : State) (e : Raised) : (s.takeFault e).faultInfo = e.info := rfl
@[simp] theorem State.takeFault_inQ (s : State) (e : Raised) : (s.takeFault e).inQ = s.inQ := rfl
@[simp] theorem State.takeFault_inClosed (s : State) (e : Raised) : (s.takeFault e).inClosed = s.inClosed := rfl
@[simp] theorem State.takeFault_outQ (s : State) (e : Raised) : (s.takeFault e).outQ = s.outQ := rfl
@[simp] theorem State.takeFault_outClosed (s : State) (e : Raised) : (s.takeFault e).outClosed = s.outClosed := rfl

/-! ### inTake -/

@[simp] theorem State.inTake_mem (s : State) : (s.inTake).mem = s.mem := rfl
@[simp] theorem State.inTake_memLen (s : State) : (s.inTake).memLen = s.memLen := rfl
@[simp] theorem State.inTake_ip (s : State) : (s.inTake).ip = s.ip := rfl
@[simp] theorem State.inTake_rb (s : State) : (s.inTake).rb = s.rb := rfl
@[simp] theorem State.inTake_lastOutput (s : State) : (s.inTake).lastOutput = s.lastOutput := rfl
@[simp] theorem State.inTake_status (s : State) : (s.inTake).status = s.status := rfl
@[simp] theorem State.inTake_cause (s : State) : (s.inTake).cause = s.cause := rfl
@[simp] theorem State.inTake_faultInfo (s : State) : (s.inTake).faultInfo = s.faultInfo := rfl
@[simp] theorem State.inTake_inQ (s : State) : (s.inTake).inQ = s.inQ.tail := rfl
@[simp] theorem State.inTake_inClosed (s : State) : (s.inTake).inClosed = s.inClosed := rfl
@[simp] theorem State.inTake_outQ (s : State) : (s.inTake).outQ = s.outQ := rfl
@[simp] theorem State.inTake_outClosed (s : State) : (s.inTake).outClosed = s.outClosed := rfl

/-! ### load -/

@[simp] theorem State.load_mem (s : State) (n : Nat) (p : List Word) : (s.load n p).mem = Memory.ofCells 0 p := rfl
@[simp] theorem State.load_memLen (s : State) (n : Nat) (p : List Word) : (s.load n p).memLen = p.length + n := rfl
@[simp] theorem State.load_ip (s : State) (n : Nat) (p : List Word) : (s.load n p).ip = 0 := rfl
@[simp] theorem State.load_rb (s : State) (n : Nat) (p : List Word) : (s.load n p).rb = 0 := rfl
@[simp] theorem State.load_lastOutput (s : State) (n : Nat) (p : List Word) : (s.load n p).lastOutput = none := rfl
@[simp] theorem State.load_status (s : State) (n : Nat) (p : List Word) : (s.load n p).status = .running := rfl
@[simp] theorem State.load_cause (s : State) (n : Nat) (p : List Word) : (s.load n p).cause = .none := rfl
@[simp] theorem State.load_faultInfo (s : State) (n : Nat) (p : List Word) : (s.load n p).faultInfo = 0 := rfl
@[simp] theorem State.load_inQ (s : State) (n : Nat) (p : List Word) : (s.load n p).inQ = s.inQ := rfl
@[simp] theorem State.load_inClosed (s : State) (n : Nat) (p : List Word) : (s.load n p).inClosed = s.inClosed := rfl
@[simp] theorem State.load_outQ (s : State) (n : Nat) (p : List Word) : (s.load n p).outQ = s.outQ := rfl
@[simp] theorem State.load_outClosed (s : State) (n : Nat) (p : List Word) : (s.load n p).outClosed = s.outClosed := rfl

/-! ### bindChannels -/

@[simp] theorem State.bindChannels_mem (s : State) (c : Channels) : (s.bindChannels c).mem = s.mem := rfl
@[simp] theorem State.bindChannels_memLen (s : State) (c : Channels) : (s.bindChannels c).memLen = s.memLen := rfl
@[simp] theorem State.bindChannels_ip (s : State) (c : Channels) : (s.bindChannels c).ip = s.ip := rfl
@[simp] theorem State.bindChannels_rb (s : State) (c : Channels) : (s.bindChannels c).rb = s.rb := rfl
@[simp] theorem State.bindChannels_lastOutput (s : State) (c : Channels) : (s.bindChannels c).lastOutput = s.lastOutput := rfl
@[simp] theorem State.bindChannels_status (s : State) (c : Channels) : (s.bindChannels c).status = s.status := rfl
@[simp] theorem State.bindChannels_cause (s : State) (c : Channels) : (s.bindChannels c).cause = s.cause := rfl
@[simp] theorem State.bindChannels_faultInfo (s : State) (c : Channels) : (s.bindChannels c).faultInfo = s.faultInfo := rfl
@[simp] theorem State.bindChannels_inQ (s : State) (c : Channels) : (s.bindChannels c).inQ = c.inQ := rfl
@[simp] theorem State.bindChannels_inClosed (s : State) (c : Channels) : (s.bindChannels c).inClosed = c.inClosed := rfl
@[simp] theorem State.bindChannels_outQ (s : State) (c : Channels) : (s.bindChannels c).outQ = c.outQ := rfl
@[simp] theorem State.bindChannels_outClosed (s : State) (c : Channels) : (s.bindChannels c).outClosed = c.outClosed := rfl
@[simp] theorem State.bindChannels_channels (s : State) (c : Channels) : (s.bindChannels c).channels = c := rfl
@[simp] theorem State.bindChannels_coreView (s : State) (c : Channels) : (s.bindChannels c).coreView = s.coreView := rfl

/-! ### Parts of the state that updates leave -/

@[simp] theorem State.jumpTo_cell (s : State) (v : Word) (i : Nat) : (s.jumpTo v).cell i = s.cell i := rfl
@[simp] theorem State.advance_cell (s : State) (d : Nat) (i : Nat) : (s.advance d).cell i = s.cell i := rfl
@[simp] theorem State.setRb_cell (s : State) (v : Word) (i : Nat) : (s.setRb v).cell i = s.cell i := rfl
@[simp] theorem State.setLastOutput_cell (s : State) (v : Word) (i : Nat) : (s.setLastOutput v).cell i = s.cell i := rfl
@[simp] theorem State.haltWith_cell (s : State) (c : Cause) (i : Nat) : (s.haltWith c).cell i = s.cell i := rfl
@[simp] theorem State.takeFault_cell (s : State) (e : Raised) (i : Nat) : (s.takeFault e).cell i = s.cell i := rfl
@[simp] theorem State.inTake_cell (s : State) (i : Nat) : s.inTake.cell i = s.cell i := rfl

/-! ### Reset -/

theorem State.reset_eq_load : State.reset = State.reset.load Config.slack [] := rfl

@[simp] theorem State.reset_cell (i : Nat) : State.reset.cell i = 0 := rfl

/-! ### Codes -/

theorem Status.code_injective {a b : Status} (h : a.code = b.code) : a = b := by
  cases a <;> cases b <;> first | rfl | exact absurd h (by decide)

theorem Cause.code_injective {a b : Cause} (h : a.code = b.code) : a = b := by
  cases a <;> cases b <;> first | rfl | exact absurd h (by decide)

end Sys2Proof.Machine
end

