-- ==== Sys2Proof/Laws/Operands.lean ====
section
/-! SUPPORT. One specification lemma for each resolve function and each shared operation: what it answers, in terms of
`badIndex`, `operandIndex` and `operandValue` of Safety.lean. -/

namespace Sys2Proof.Machine

theorem State.badIndex_eq_none_iff_readable {s : State} {k : Nat} {m : Mode} :
    s.badIndex k m = none ↔ s.Readable k m := by
  unfold State.badIndex State.Readable
  split
  · rename_i h1
    split
    · rename_i h2
      exact ⟨fun _ => ⟨h1, fun hm => h2.resolve_left hm⟩, fun _ => rfl⟩
    · rename_i h2
      rw [not_or] at h2
      exact ⟨nofun, fun h => absurd (h.2 h2.1) h2.2⟩
  · rename_i h1
    exact ⟨nofun, fun h => absurd h.1 h1⟩

theorem State.badIndex_eq_none_iff_writable {s : State} {k : Nat} {m : Mode} (hm : m ≠ .immediate) :
    s.badIndex k m = none ↔ s.Writable k m := by
  rw [State.badIndex_eq_none_iff_readable]
  unfold State.Readable State.Writable
  simp [hm]

theorem State.Writable.badIndex {s : State} {k : Nat} {m : Mode} (h : s.Writable k m) : s.badIndex k m = none :=
  (State.badIndex_eq_none_iff_writable h.2.1).mpr h

theorem State.Readable.badIndex {s : State} {k : Nat} {m : Mode} (h : s.Readable k m) : s.badIndex k m = none :=
  State.badIndex_eq_none_iff_readable.mpr h

/-- A failing index is out of bounds. -/
theorem State.badIndex_outOfBounds {s : State} {k : Nat} {m : Mode} {a : Int} (h : s.badIndex k m = some a) :
    ¬ s.InBounds a := by
  unfold State.badIndex at h
  split at h
  · split at h
    · cases h
    · cases h; tauto
  · cases h; assumption

theorem State.firstBadIndex_outOfBounds {s : State} {a : Int} :
    ∀ {l : List (Nat × Mode)}, s.firstBadIndex l = some a → ¬ s.InBounds a
  | [], h => by cases h
  | (k, m) :: rest, h => by
    unfold State.firstBadIndex at h
    split at h
    · cases h; exact State.badIndex_outOfBounds ‹_›
    · exact State.firstBadIndex_outOfBounds h

theorem State.param_eq (s : State) (k : Nat) :
    s.param k =
      if s.InBounds (s.ip.toInt + k) then .ok (s.paramCell k) else .error (.outOfBoundsAccess (s.ip.toInt + k)) :=
  s.memRead_eq _

/-- `ReadOperand` answers the operand's value, or raises on the first index that fails (40_execution_cycle.md R79). -/
theorem State.readOperand_eq (s : State) (k : Nat) (m : Mode) :
    s.readOperand k m =
      match s.badIndex k m with
      | some a => .error (.outOfBoundsAccess a)
      | none => .ok (s.operandValue k m) := by
  unfold State.readOperand State.badIndex
  rw [State.param_eq]
  by_cases h1 : s.InBounds (s.ip.toInt + k)
  · rw [if_pos h1, if_pos h1]
    cases m with
    | immediate => simp [Bind.bind, Except.bind, State.operandValue]
    | position =>
      simp only [Bind.bind, Except.bind, State.memRead_eq, State.operandValue, State.operandIndex, reduceCtorEq, false_or]
      by_cases h2 : s.InBounds (s.paramCell k).toInt
      · rw [if_pos h2, if_pos h2]
      · rw [if_neg h2, if_neg h2]
    | relative =>
      simp only [Bind.bind, Except.bind, State.memRead_eq, State.operandValue, State.operandIndex, reduceCtorEq, false_or]
      by_cases h2 : s.InBounds ((s.paramCell k).toInt + s.rb.toInt)
      · rw [if_pos h2, if_pos h2]
      · rw [if_neg h2, if_neg h2]
  · rw [if_neg h1, if_neg h1]; rfl

theorem State.checkTarget_eq (s : State) (t : Int) :
    s.checkTarget t = if s.InBounds t then .ok t else .error (.outOfBoundsAccess t) := by
  unfold State.checkTarget State.InBounds
  by_cases h : t < 0 ∨ t ≥ s.memLen
  · rw [if_pos h, if_neg (by omega)]
  · rw [if_neg h, if_pos (by omega)]

/-- `WriteTarget` answers an index in range, or raises on the first index that fails (40_execution_cycle.md R79). -/
theorem State.writeTarget_eq (s : State) (k : Nat) {m : Mode} (hm : m ≠ .immediate) :
    s.writeTarget k m =
      match s.badIndex k m with
      | some a => .error (.outOfBoundsAccess a)
      | none => .ok (s.operandIndex k m) := by
  unfold State.writeTarget State.badIndex
  rw [State.param_eq]
  by_cases h1 : s.InBounds (s.ip.toInt + k)
  · rw [if_pos h1, if_pos h1]
    cases m with
    | immediate => exact absurd rfl hm
    | position =>
      simp only [Bind.bind, Except.bind, State.checkTarget_eq, State.operandIndex, reduceCtorEq, false_or]
      by_cases h2 : s.InBounds (s.paramCell k).toInt
      · rw [if_pos h2, if_pos h2]
      · rw [if_neg h2, if_neg h2]
    | relative =>
      simp only [Bind.bind, Except.bind, State.checkTarget_eq, State.operandIndex, reduceCtorEq, false_or]
      by_cases h2 : s.InBounds ((s.paramCell k).toInt + s.rb.toInt)
      · rw [if_pos h2, if_pos h2]
      · rw [if_neg h2, if_neg h2]
  · rw [if_neg h1, if_neg h1]; rfl

theorem State.writeTarget_writable {s : State} {k : Nat} {m : Mode} (h : s.Writable k m) :
    s.writeTarget k m = .ok (s.operandIndex k m) := by
  rw [State.writeTarget_eq s k h.2.1, h.badIndex]

theorem State.readOperand_readable {s : State} {k : Nat} {m : Mode} (h : s.Readable k m) :
    s.readOperand k m = .ok (s.operandValue k m) := by
  rw [State.readOperand_eq, h.badIndex]

/-- A resolved destination is in bounds. -/
theorem State.Writable.inBounds {s : State} {k : Nat} {m : Mode} (h : s.Writable k m) :
    s.InBounds (s.operandIndex k m) :=
  h.2.2

theorem State.finish_ok (s t : State) : s.finish (.ok t) = .next t := rfl

theorem State.finish_error (s : State) (e : Raised) : s.finish (.error e) = .next (s.takeFault e) := rfl

/-- Whatever an operation answers, its instruction ends in a next state. -/
theorem State.finish_next (s : State) (r : Except Raised State) : ∃ t, s.finish r = .next t := by
  cases r with
  | ok t => exact ⟨t, rfl⟩
  | error e => exact ⟨s.takeFault e, rfl⟩

/-- The RRW shape: the first failing operand's fault, or the one write and `IP + 4`. -/
theorem State.binaryOp_eq (s : State) (f : Word → Word → Word) (a b : Mode) {d : Mode} (hd : d ≠ .immediate) :
    s.binaryOp f a b d =
      match s.firstBadIndex [(1, a), (2, b), (3, d)] with
      | some x => .error (.outOfBoundsAccess x)
      | none =>
        .ok ((s.setCell (s.operandIndex 3 d).toNat (f (s.operandValue 1 a) (s.operandValue 2 b))).advance 4) := by
  unfold State.binaryOp
  simp only [State.readOperand_eq, State.writeTarget_eq s 3 hd, State.firstBadIndex]
  cases h1 : s.badIndex 1 a with
  | some x => rfl
  | none =>
    cases h2 : s.badIndex 2 b with
    | some x => rfl
    | none =>
      cases h3 : s.badIndex 3 d with
      | some x => rfl
      | none =>
        have hw := (State.badIndex_eq_none_iff_writable hd).mp h3
        simp only [Bind.bind, Except.bind, State.memWrite_eq, if_pos hw.inBounds]

/-- The jump shape. -/
theorem State.branchOp_eq (s : State) (p : Word → Bool) (a b : Mode) :
    s.branchOp p a b =
      match s.firstBadIndex [(1, a), (2, b)] with
      | some x => .error (.outOfBoundsAccess x)
      | none => .ok (if p (s.operandValue 1 a) then s.jumpTo (s.operandValue 2 b) else s.advance 3) := by
  unfold State.branchOp
  simp only [State.readOperand_eq, State.firstBadIndex]
  cases h1 : s.badIndex 1 a with
  | some x => rfl
  | none =>
    cases h2 : s.badIndex 2 b with
    | some x => rfl
    | none => rfl

/-- Input's three ways and its faults. -/
theorem State.inputOp_eq (s : State) {d : Mode} (hd : d ≠ .immediate) :
    s.inputOp d =
      match s.firstBadIndex [(1, d)] with
      | some x => .error (.outOfBoundsAccess x)
      | none =>
        match s.inPoll with
        | .value v => .ok ((s.inTake.setCell (s.operandIndex 1 d).toNat v).advance 2)
        | .closed => .ok (s.haltWith .inputClosed)
        | .empty => .ok s := by
  unfold State.inputOp
  simp only [State.writeTarget_eq s 1 hd, State.firstBadIndex]
  cases h1 : s.badIndex 1 d with
  | some x => rfl
  | none =>
    have hw := (State.badIndex_eq_none_iff_writable hd).mp h1
    have hb : s.inTake.InBounds (s.operandIndex 1 d) := hw.inBounds
    cases hp : s.inPoll with
    | value v => simp only [Bind.bind, Except.bind, State.memWrite_eq, if_pos hb]
    | empty => rfl
    | closed => rfl

/-- Output's two ways and its faults. -/
theorem State.outputOp_eq (s : State) (a : Mode) :
    s.outputOp a =
      match s.firstBadIndex [(1, a)] with
      | some x => .error (.outOfBoundsAccess x)
      | none =>
        if s.outClosed then .error (.outputChannelClosed (s.operandValue 1 a))
        else .ok ((State.setLastOutput { s with outQ := s.outQ ++ [s.operandValue 1 a] } (s.operandValue 1 a)).advance 2) := by
  unfold State.outputOp
  simp only [State.readOperand_eq, State.firstBadIndex]
  cases h1 : s.badIndex 1 a with
  | some x => rfl
  | none => cases hc : s.outClosed <;> simp [Bind.bind, Except.bind, State.outSend, hc]

/-- AdjustRelativeBase's effect and its faults. -/
theorem State.adjustOp_eq (s : State) (a : Mode) :
    s.adjustOp a =
      match s.firstBadIndex [(1, a)] with
      | some x => .error (.outOfBoundsAccess x)
      | none => .ok ((s.setRb (wrap64 (s.rb.toInt + (s.operandValue 1 a).toInt))).advance 2) := by
  unfold State.adjustOp
  simp only [State.readOperand_eq, State.firstBadIndex]
  cases h1 : s.badIndex 1 a with
  | some x => rfl
  | none => rfl

/-- No operand fails where every one of them resolves. -/
theorem State.firstBadIndex_rrw {s : State} {a b d : Mode} (h1 : s.Readable 1 a) (h2 : s.Readable 2 b)
    (h3 : s.Writable 3 d) : s.firstBadIndex [(1, a), (2, b), (3, d)] = none := by
  simp [State.firstBadIndex, h1.badIndex, h2.badIndex, h3.badIndex]

theorem State.firstBadIndex_rr {s : State} {a b : Mode} (h1 : s.Readable 1 a) (h2 : s.Readable 2 b) :
    s.firstBadIndex [(1, a), (2, b)] = none := by
  simp [State.firstBadIndex, h1.badIndex, h2.badIndex]

theorem State.firstBadIndex_r {s : State} {a : Mode} (h1 : s.Readable 1 a) : s.firstBadIndex [(1, a)] = none := by
  simp [State.firstBadIndex, h1.badIndex]

theorem State.firstBadIndex_w {s : State} {d : Mode} (h1 : s.Writable 1 d) : s.firstBadIndex [(1, d)] = none := by
  simp [State.firstBadIndex, h1.badIndex]

/-- `IP + delta` is exact for an instruction that fits in memory (10_state.md R13). -/
theorem State.advance_ip_toInt {s : State} {k d : Nat} (hl : s.memLen ≤ Config.memLenMax)
    (h : s.InBounds (s.ip.toInt + k)) (hd : d ≤ k + 1) : (s.advance d).ip.toInt = s.ip.toInt + d := by
  have hc : Config.memLenMax = 2 ^ 62 := rfl
  have hl' : s.memLen ≤ 2 ^ 62 := hc ▸ hl
  have hlo := word_toInt_lower s.ip
  unfold State.InBounds at h
  rw [State.advance_ip]
  exact wrap64_toInt_of_range (by omega) (by omega)

end Sys2Proof.Machine
end

