-- ==== Sys2Proof/Laws/PerInstr.lean ====
section
/-! SUPPORT. Facts about every instruction as syntax, one lemma per constructor. -/

namespace Sys2Proof.Laws.Shape

open Sys2Proof

/-- The instruction's operands are as many as its format has parameters, its length is one more, a destination is the last
operand, and its word is a five-digit decimal number (30_encoding.md R53, R63, R65). -/
def Statement (i : Instr) : Prop :=
  i.operands.length = i.opcode.format.params ∧ i.opcode.length = i.operands.length + 1 ∧
    (∀ d, i.destination = some d → i.operands.getLast? = some (i.operands.length, d)) ∧ (encode i).toNat < 100000

theorem add (a b d : Mode) : Statement (.add a b d) := by
  refine ⟨rfl, rfl, fun e h => ?_, ?_⟩
  · cases h; rfl
  · cases a <;> cases b <;> cases d <;> decide

theorem multiply (a b d : Mode) : Statement (.multiply a b d) := by
  refine ⟨rfl, rfl, fun e h => ?_, ?_⟩
  · cases h; rfl
  · cases a <;> cases b <;> cases d <;> decide

theorem input (d : Mode) : Statement (.input d) := by
  refine ⟨rfl, rfl, fun e h => ?_, ?_⟩
  · cases h; rfl
  · cases d <;> decide

theorem output (a : Mode) : Statement (.output a) := by
  refine ⟨rfl, rfl, nofun, ?_⟩
  cases a <;> decide

theorem jumpIfTrue (a b : Mode) : Statement (.jumpIfTrue a b) := by
  refine ⟨rfl, rfl, nofun, ?_⟩
  cases a <;> cases b <;> decide

theorem jumpIfFalse (a b : Mode) : Statement (.jumpIfFalse a b) := by
  refine ⟨rfl, rfl, nofun, ?_⟩
  cases a <;> cases b <;> decide

theorem lessThan (a b d : Mode) : Statement (.lessThan a b d) := by
  refine ⟨rfl, rfl, fun e h => ?_, ?_⟩
  · cases h; rfl
  · cases a <;> cases b <;> cases d <;> decide

theorem equals (a b d : Mode) : Statement (.equals a b d) := by
  refine ⟨rfl, rfl, fun e h => ?_, ?_⟩
  · cases h; rfl
  · cases a <;> cases b <;> cases d <;> decide

theorem adjustRelativeBase (a : Mode) : Statement (.adjustRelativeBase a) := by
  refine ⟨rfl, rfl, nofun, ?_⟩
  cases a <;> decide

theorem halt : Statement .halt := by
  refine ⟨rfl, rfl, nofun, ?_⟩
  decide

end Sys2Proof.Laws.Shape
end

