-- ==== Sys2Proof/Laws/Step.lean ====
section
/-! SUPPORT. What a step can do: the terminal states, the fetch and decode faults, and the instruction that runs; and
that each update an instruction may make keeps the parts of the invariant it could break. -/

namespace Sys2Proof.Machine

theorem fetch_eq (s : State) :
    s.fetch = if s.InBounds s.ip.toInt then .ok (s.cell s.ip.toInt.toNat) else .error (.outOfBoundsAccess s.ip.toInt) :=
  s.memRead_eq _

/-- Everything fetch and decode can do (40_execution_cycle.md R71, R72), under any opcode map. -/
theorem fetchInstrWith_eq (map : OpcodeMap) (s : State) :
    s.fetchInstrWith map =
      if s.InBounds s.ip.toInt then
        match decodeWith map (s.cell s.ip.toInt.toNat) with
        | .ok i => .ok i
        | .error _ => .error (.malformedProgram (s.cell s.ip.toInt.toNat))
      else .error (.outOfBoundsAccess s.ip.toInt) := by
  unfold State.fetchInstrWith
  rw [fetch_eq]
  by_cases h : s.InBounds s.ip.toInt
  · rw [if_pos h, if_pos h]; rfl
  · rw [if_neg h, if_neg h]; rfl

theorem fetchInstr_eq (s : State) :
    s.fetchInstr =
      if s.InBounds s.ip.toInt then
        match decode (s.cell s.ip.toInt.toNat) with
        | .ok i => .ok i
        | .error _ => .error (.malformedProgram (s.cell s.ip.toInt.toNat))
      else .error (.outOfBoundsAccess s.ip.toInt) :=
  fetchInstrWith_eq opcodeMap s

/-- An instruction that was fetched stands at `IP` and decodes from the cell there. -/
theorem fetchInstrWith_ok_iff {map : OpcodeMap} {s : State} {i : Instr} :
    s.fetchInstrWith map = .ok i ↔
      s.InBounds s.ip.toInt ∧ decodeWith map (s.cell s.ip.toInt.toNat) = .ok i := by
  rw [fetchInstrWith_eq]
  by_cases h : s.InBounds s.ip.toInt
  · rw [if_pos h]
    cases hd : decodeWith map (s.cell s.ip.toInt.toNat) with
    | error e => exact ⟨nofun, fun h' => nomatch h'.2⟩
    | ok j => exact ⟨fun h' => by cases h'; exact ⟨h, rfl⟩, fun h' => by cases h'.2; rfl⟩
  · rw [if_neg h]
    exact ⟨nofun, fun h' => absurd h'.1 h⟩

theorem fetchInstr_ok_iff {s : State} {i : Instr} :
    s.fetchInstr = .ok i ↔ s.InBounds s.ip.toInt ∧ decode (s.cell s.ip.toInt.toNat) = .ok i :=
  fetchInstrWith_ok_iff

theorem fetchInstrWith_wellFormed {map : OpcodeMap} {s : State} {i : Instr} (h : s.fetchInstrWith map = .ok i) :
    i.WellFormed :=
  decodeWith_wellFormed (fetchInstrWith_ok_iff.mp h).2

theorem fetchInstr_wellFormed {s : State} {i : Instr} (h : s.fetchInstr = .ok i) : i.WellFormed :=
  fetchInstrWith_wellFormed h

theorem stepWith_of_not_running {map : OpcodeMap} {s : State} (h : s.status ≠ .running) : stepWith map s = .next s := by
  unfold stepWith
  cases hs : s.status with
  | running => exact absurd hs h
  | halted => rfl
  | faulted => rfl

theorem step_of_halted {s : State} (h : s.status = .halted) : step s = .next s :=
  stepWith_of_not_running (by simp [h])

theorem step_of_faulted {s : State} (h : s.status = .faulted) : step s = .next s :=
  stepWith_of_not_running (by simp [h])

theorem stepWith_of_fetch_error {map : OpcodeMap} {s : State} {e : Raised} (h : s.status = .running)
    (he : s.fetchInstrWith map = .error e) : stepWith map s = .next (s.takeFault e) := by
  simp [stepWith, h, he]

theorem stepWith_of_fetch_ok {map : OpcodeMap} {s : State} {i : Instr} (h : s.status = .running)
    (hi : s.fetchInstrWith map = .ok i) : stepWith map s = exec i s := by
  simp [stepWith, h, hi]

theorem step_of_fetch_error {s : State} {e : Raised} (h : s.status = .running) (he : s.fetchInstr = .error e) :
    step s = .next (s.takeFault e) :=
  stepWith_of_fetch_error h he

/-- What a step can do under any opcode map, said once: nothing in a terminal state; else the entry of a fetch or decode
fault, or the instruction at `IP`, which is well-formed. -/
theorem stepWith_cases {map : OpcodeMap} {s t : State} (h : stepWith map s = .next t) :
    (s.status ≠ .running ∧ t = s) ∨
      (∃ e, s.status = .running ∧ s.fetchInstrWith map = .error e ∧ t = s.takeFault e) ∨
      (∃ i, s.status = .running ∧ s.fetchInstrWith map = .ok i ∧ i.WellFormed ∧ exec i s = .next t) := by
  by_cases hs : s.status = .running
  · cases hf : s.fetchInstrWith map with
    | error e =>
      rw [stepWith_of_fetch_error hs hf] at h; cases h
      exact .inr (.inl ⟨e, hs, rfl, rfl⟩)
    | ok i =>
      rw [stepWith_of_fetch_ok hs hf] at h
      exact .inr (.inr ⟨i, hs, rfl, fetchInstrWith_wellFormed hf, h⟩)
  · rw [stepWith_of_not_running hs] at h; cases h
    exact .inl ⟨hs, rfl⟩

/-- What a step can do with the numbers of 30_encoding.md R52. -/
theorem step_cases {s t : State} (h : step s = .next t) :
    (s.status ≠ .running ∧ t = s) ∨
      (∃ e, s.status = .running ∧ s.fetchInstr = .error e ∧ t = s.takeFault e) ∨
      (∃ i, s.status = .running ∧ s.fetchInstr = .ok i ∧ i.WellFormed ∧ exec i s = .next t) :=
  stepWith_cases h

/-! ### What an instruction can do to the state -/

/-- The next state of an instruction whose operands all resolve. -/
def Effect (s t : State) : Instr → Prop
  | .add a b d =>
    t = (s.setCell (s.operandIndex 3 d).toNat (addValue (s.operandValue 1 a) (s.operandValue 2 b))).advance 4
  | .multiply a b d =>
    t = (s.setCell (s.operandIndex 3 d).toNat (multiplyValue (s.operandValue 1 a) (s.operandValue 2 b))).advance 4
  | .lessThan a b d =>
    t = (s.setCell (s.operandIndex 3 d).toNat (lessThanValue (s.operandValue 1 a) (s.operandValue 2 b))).advance 4
  | .equals a b d =>
    t = (s.setCell (s.operandIndex 3 d).toNat (equalsValue (s.operandValue 1 a) (s.operandValue 2 b))).advance 4
  | .jumpIfTrue a b => t = if isTrue (s.operandValue 1 a) then s.jumpTo (s.operandValue 2 b) else s.advance 3
  | .jumpIfFalse a b => t = if isFalse (s.operandValue 1 a) then s.jumpTo (s.operandValue 2 b) else s.advance 3
  | .input d =>
    (∃ v, s.inPoll = .value v ∧ t = (s.inTake.setCell (s.operandIndex 1 d).toNat v).advance 2) ∨
      (s.inPoll = .closed ∧ t = s.haltWith .inputClosed) ∨ (s.inPoll = .empty ∧ t = s)
  | .output a =>
    (s.outClosed = true ∧ t = s.takeFault (.outputChannelClosed (s.operandValue 1 a))) ∨
      (s.outClosed = false ∧
        t = (State.setLastOutput { s with outQ := s.outQ ++ [s.operandValue 1 a] } (s.operandValue 1 a)).advance 2)
  | .adjustRelativeBase a => t = (s.setRb (wrap64 (s.rb.toInt + (s.operandValue 1 a).toInt))).advance 2
  | .halt => t = s.haltWith .halt

/-- Every next state of an instruction that decodes, said once: the fault of its first failing operand, or its effect. -/
theorem exec_cases {s t : State} {i : Instr} (hw : i.WellFormed) (h : exec i s = .next t) :
    (∃ a, s.firstBadIndex i.operands = some a ∧ t = s.takeFault (.outOfBoundsAccess a)) ∨
      (s.firstBadIndex i.operands = none ∧ Effect s t i) := by
  have hd := Instr.wf_destination hw
  have dst : ∀ d : Mode, i.destination = some d → d ≠ .immediate := fun d e he => hd (by rw [e, he])
  cases i with
  | add a b d =>
    simp only [exec, execAdd, State.binaryOp_eq s _ a b (dst d rfl)] at h
    cases hb : s.firstBadIndex [(1, a), (2, b), (3, d)] <;> rw [hb] at h <;> cases h
    · exact .inr ⟨hb, rfl⟩
    · exact .inl ⟨_, hb, rfl⟩
  | multiply a b d =>
    simp only [exec, execMultiply, State.binaryOp_eq s _ a b (dst d rfl)] at h
    cases hb : s.firstBadIndex [(1, a), (2, b), (3, d)] <;> rw [hb] at h <;> cases h
    · exact .inr ⟨hb, rfl⟩
    · exact .inl ⟨_, hb, rfl⟩
  | lessThan a b d =>
    simp only [exec, execLessThan, State.binaryOp_eq s _ a b (dst d rfl)] at h
    cases hb : s.firstBadIndex [(1, a), (2, b), (3, d)] <;> rw [hb] at h <;> cases h
    · exact .inr ⟨hb, rfl⟩
    · exact .inl ⟨_, hb, rfl⟩
  | equals a b d =>
    simp only [exec, execEquals, State.binaryOp_eq s _ a b (dst d rfl)] at h
    cases hb : s.firstBadIndex [(1, a), (2, b), (3, d)] <;> rw [hb] at h <;> cases h
    · exact .inr ⟨hb, rfl⟩
    · exact .inl ⟨_, hb, rfl⟩
  | jumpIfTrue a b =>
    simp only [exec, execJumpIfTrue, State.branchOp_eq] at h
    cases hb : s.firstBadIndex [(1, a), (2, b)] <;> rw [hb] at h <;> cases h
    · exact .inr ⟨hb, rfl⟩
    · exact .inl ⟨_, hb, rfl⟩
  | jumpIfFalse a b =>
    simp only [exec, execJumpIfFalse, State.branchOp_eq] at h
    cases hb : s.firstBadIndex [(1, a), (2, b)] <;> rw [hb] at h <;> cases h
    · exact .inr ⟨hb, rfl⟩
    · exact .inl ⟨_, hb, rfl⟩
  | input d =>
    simp only [exec, execInput, State.inputOp_eq s (dst d rfl)] at h
    cases hb : s.firstBadIndex [(1, d)] <;> rw [hb] at h
    · refine .inr ⟨hb, ?_⟩
      cases hp : s.inPoll with
      | value v => rw [hp] at h; cases h; exact .inl ⟨v, hp, rfl⟩
      | closed => rw [hp] at h; cases h; exact .inr (.inl ⟨hp, rfl⟩)
      | empty => rw [hp] at h; cases h; exact .inr (.inr ⟨hp, rfl⟩)
    · cases h; exact .inl ⟨_, hb, rfl⟩
  | output a =>
    simp only [exec, execOutput, State.outputOp_eq] at h
    cases hb : s.firstBadIndex [(1, a)] <;> rw [hb] at h
    · refine .inr ⟨hb, ?_⟩
      cases hc : s.outClosed with
      | true => simp only [hc] at h; cases h; exact .inl ⟨hc, rfl⟩
      | false =>
        simp only [hc] at h; cases h
        exact .inr ⟨hc, by rw [hc]⟩
    · cases h; exact .inl ⟨_, hb, rfl⟩
  | adjustRelativeBase a =>
    simp only [exec, execAdjustRelativeBase, State.adjustOp_eq] at h
    cases hb : s.firstBadIndex [(1, a)] <;> rw [hb] at h <;> cases h
    · exact .inr ⟨hb, rfl⟩
    · exact .inl ⟨_, hb, rfl⟩
  | halt => cases h; exact .inr ⟨rfl, rfl⟩

/-! ### The channels as CORE sees them -/

theorem inPoll_eq_value_iff {s : State} {v : Word} : s.inPoll = .value v ↔ ∃ rest, s.inQ = v :: rest := by
  unfold State.inPoll
  cases s.inQ <;> cases s.inClosed <;> simp

theorem inPoll_eq_empty_iff {s : State} : s.inPoll = .empty ↔ s.inQ = [] ∧ s.inClosed = false := by
  unfold State.inPoll
  cases s.inQ <;> cases s.inClosed <;> simp

theorem inPoll_eq_closed_iff {s : State} : s.inPoll = .closed ↔ s.inQ = [] ∧ s.inClosed = true := by
  unfold State.inPoll
  cases s.inQ <;> cases s.inClosed <;> simp

/-- Held, said in full: an Input at `IP` whose destination is in range, on an open, empty channel. -/
theorem heldWith_iff {map : OpcodeMap} {s : State} :
    s.heldWith map = true ↔ s.status = .running ∧
      ∃ d, s.fetchInstrWith map = .ok (.input d) ∧ (∃ t, s.writeTarget 1 d = .ok t) ∧ s.inPoll = .empty := by
  unfold State.heldWith
  constructor
  · intro h
    split at h
    · rename_i d hs hf
      unfold State.inputHolds at h
      split at h
      · exact ⟨hs, d, hf, ⟨_, ‹_›⟩, by simpa using h⟩
      · cases h
    · cases h
  · rintro ⟨hs, d, hf, ⟨t, ht⟩, hq⟩
    rw [hs, hf]
    simp [State.inputHolds, ht, hq]

theorem held_iff {s : State} :
    s.held = true ↔ s.status = .running ∧
      ∃ d, s.fetchInstr = .ok (.input d) ∧ (∃ t, s.writeTarget 1 d = .ok t) ∧ s.inPoll = .empty :=
  heldWith_iff

/-- A held machine's step changes nothing. -/
theorem stepWith_of_held {map : OpcodeMap} {s : State} (h : s.heldWith map = true) : stepWith map s = .next s := by
  obtain ⟨hs, d, hf, ⟨t, ht⟩, hq⟩ := heldWith_iff.mp h
  rw [stepWith_of_fetch_ok hs hf]
  simp [exec, execInput, State.inputOp, ht, hq, State.finish, Bind.bind, Except.bind]

theorem step_of_held {s : State} (h : s.held = true) : step s = .next s :=
  stepWith_of_held h

/-! ### States that agree on memory and registers -/

theorem fetchInstrWith_congr {map : OpcodeMap} {s t : State} (h1 : t.mem = s.mem) (h2 : t.memLen = s.memLen)
    (h3 : t.ip = s.ip) : t.fetchInstrWith map = s.fetchInstrWith map := by
  simp only [State.fetchInstrWith, State.fetch, State.memRead, State.cell, h1, h2, h3]

theorem fetchInstr_congr {s t : State} (h1 : t.mem = s.mem) (h2 : t.memLen = s.memLen) (h3 : t.ip = s.ip) :
    t.fetchInstr = s.fetchInstr :=
  fetchInstrWith_congr h1 h2 h3

theorem operandIndex_congr {s t : State} (h1 : t.mem = s.mem) (h3 : t.ip = s.ip) (h4 : t.rb = s.rb) (k : Nat) (m : Mode) :
    t.operandIndex k m = s.operandIndex k m := by
  cases m <;> simp only [State.operandIndex, State.paramCell, State.cell, h1, h3, h4]

theorem operandValue_congr {s t : State} (h1 : t.mem = s.mem) (h3 : t.ip = s.ip) (h4 : t.rb = s.rb) (k : Nat) (m : Mode) :
    t.operandValue k m = s.operandValue k m := by
  cases m <;> simp only [State.operandValue, State.operandIndex, State.paramCell, State.cell, h1, h3, h4]

theorem badIndex_congr {s t : State} (h1 : t.mem = s.mem) (h2 : t.memLen = s.memLen) (h3 : t.ip = s.ip) (h4 : t.rb = s.rb)
    (k : Nat) (m : Mode) : t.badIndex k m = s.badIndex k m := by
  cases s; cases t
  cases h1; cases h2; cases h3; cases h4
  cases m <;> rfl

theorem firstBadIndex_congr {s t : State} (h1 : t.mem = s.mem) (h2 : t.memLen = s.memLen) (h3 : t.ip = s.ip)
    (h4 : t.rb = s.rb) : ∀ l : List (Nat × Mode), t.firstBadIndex l = s.firstBadIndex l
  | [] => rfl
  | (k, m) :: rest => by
    simp only [State.firstBadIndex, badIndex_congr h1 h2 h3 h4 k m, firstBadIndex_congr h1 h2 h3 h4 rest]

/-! ### Memory's part of the invariant -/

/-- A write in bounds keeps the memory canonical and within the array. -/
theorem State.setCell_listed {s : State} {i : Nat} {v : Word} (hi : i < s.memLen)
    (h : ∀ c ∈ s.mem, c.1 < s.memLen) : ∀ c ∈ (s.setCell i v).mem, c.1 < (s.setCell i v).memLen := by
  intro c hc
  rcases Memory.mem_write hc with hc | hc
  · exact h c hc
  · exact hc ▸ hi

/-- The index of an in-bounds address, as a natural number. -/
theorem State.InBounds.toNat_lt {s : State} {a : Int} (h : s.InBounds a) : a.toNat < s.memLen := by
  unfold State.InBounds at h
  omega

/-- Fault entry keeps the invariant. -/
theorem State.Inv.takeFault {s : State} (h : s.Inv) (e : Raised) : (s.takeFault e).Inv :=
  ⟨h.memWf, h.listed, h.memLenLe, nofun, nofun, fun _ => by cases e <;> simp [Raised.cause]⟩

/-- A write in bounds keeps the invariant. -/
theorem State.Inv.setCell {s : State} (h : s.Inv) {i : Nat} (v : Word) (hi : i < s.memLen) : (s.setCell i v).Inv :=
  ⟨Memory.wf_write h.memWf i v, State.setCell_listed hi h.listed, h.memLenLe, h.runningClean, h.haltedCause, h.faultedCause⟩

/-- The invariant speaks of five fields only. -/
theorem State.Inv.congr {s t : State} (h : s.Inv) (h1 : t.mem = s.mem) (h2 : t.memLen = s.memLen)
    (h3 : t.status = s.status) (h4 : t.cause = s.cause) (h5 : t.faultInfo = s.faultInfo) : t.Inv := by
  obtain ⟨a, b, c, d, e, f⟩ := h
  constructor <;> simp only [h1, h2, h3, h4, h5] <;> assumption

/-- A destination last in a list whose operands all resolve is writable. -/
theorem State.writable_of_firstBadIndex {s : State} {k : Nat} {d : Mode} (hd : d ≠ .immediate) :
    ∀ {l : List (Nat × Mode)}, s.firstBadIndex (l ++ [(k, d)]) = none → s.Writable k d
  | [], h => by
    refine (State.badIndex_eq_none_iff_writable hd).mp ?_
    simp only [List.nil_append, State.firstBadIndex] at h
    split at h
    · cases h
    · assumption
  | (_, _) :: _, h => by
    simp only [List.cons_append, State.firstBadIndex] at h
    split at h
    · cases h
    · exact State.writable_of_firstBadIndex hd h

end Sys2Proof.Machine
end

