-- ==== Sys2Proof/Machine/Schedule.lean ====
section
/-! DEFINITION. Runs of a machine among the acts of its host, runs of a network, and the one assumption about progress,
weak fairness (70_reset_and_hazards.md R206, D26; log 28). No obligation takes fairness as a premise; Laws/Schedule.lean
proves from it what R206 says. Everything takes the parameters of 00_scope.md R5: the slack of the host's resets and the
opcode map. -/

namespace Sys2Proof.Machine

/-- The state after a step (40_execution_cycle.md R70); the outcomes `fault` and `refused` do not occur (log 15). -/
def State.stepped (s : State) (map : OpcodeMap) : State :=
  match stepWith map s with
  | .next t => t
  | .fault _ => s
  | .refused _ => s

/-- What can happen to a machine: a step, or an act of the host between steps (60_exceptions.md R163). -/
inductive Event where
  | step
  | host (a : HostAction)
  deriving DecidableEq, Repr

/-- The state after an event. -/
def State.event (s : State) (par : Params) : Event → State
  | .step => s.stepped par.map
  | .host a => s.hostAct par.slack a

/-- The state after the first `k` events of a schedule. -/
def State.afterEvents (s : State) (par : Params) (events : Nat → Event) : Nat → State
  | 0 => s
  | k + 1 => (s.afterEvents par events k).event par (events k)

/-- The machine can take a step that is not a hold (70_reset_and_hazards.md R206). -/
def State.canStep (s : State) (map : OpcodeMap) : Bool :=
  s.status == .running && !s.heldWith map

/-- Weak fairness for one machine and its host: a machine that can step from some point on takes a step after it
(70_reset_and_hazards.md R206). An act of the host that lifts a hold makes the machine able to step, and no later act but
a reset takes that away, so the same condition says that a held Input notices what the host supplied. -/
def State.WeaklyFair (s : State) (par : Params) (events : Nat → Event) : Prop :=
  ∀ k, (∀ j, k ≤ j → (s.afterEvents par events j).canStep par.map = true) → ∃ j, k ≤ j ∧ events j = .step

/-- The network after the first `k` events of a schedule (60_exceptions.md R180: the order is free). -/
def Network.afterEvents (net : Network) (map : OpcodeMap) (events : Nat → NetEvent) : Nat → Network
  | 0 => net
  | k + 1 => (net.afterEvents map events k).event map (events k)

/-- Machine `i` of the network can take a step that is not a hold. -/
def Network.canStep (net : Network) (map : OpcodeMap) (i : Nat) : Bool :=
  match net[i]? with
  | none => false
  | some n => n.core.canStep map

/-- Weak fairness for every machine of a network (70_reset_and_hazards.md R206). -/
def Network.WeaklyFair (net : Network) (map : OpcodeMap) (events : Nat → NetEvent) : Prop :=
  ∀ i k, (∀ j, k ≤ j → (net.afterEvents map events j).canStep map i = true) → ∃ j, k ≤ j ∧ events j = .step i

end Sys2Proof.Machine
end

