-- ==== Sys2Proof/Laws/Schedule.lean ====
section
/-! SUPPORT. What a host act leaves, and what weak fairness gives (70_reset_and_hazards.md R206): a machine that can step
does step, on the CORE state it could step from, and a held Input notices what the host supplied. -/

namespace Sys2Proof.Machine

/-! ### A host act that is no reset -/

/-- Everything a host act other than a reset can do: an append, a close, a take or a dropped listener. -/
theorem hostAct_cases {s : State} {slack : Nat} {a : HostAction} (h : a.program = none) :
    (∃ v, a = .append v ∧ s.hostAct slack a = s.hostAppend v) ∨ s.hostAct slack a = s.hostCloseInput ∨
      (∃ q, s.hostAct slack a = { s with outQ := q }) ∨ s.hostAct slack a = s.hostDropListener := by
  cases a with
  | reset p => cases h
  | startRun p c => cases h
  | append v => exact .inl ⟨v, rfl, rfl⟩
  | closeInput => exact .inr (.inl rfl)
  | take =>
    refine .inr (.inr (.inl ?_))
    obtain ⟨_, _, _, _, _, _, _, _, _, _, outQ, outClosed⟩ := s
    cases outClosed with
    | true => exact ⟨outQ, rfl⟩
    | false =>
      cases outQ with
      | nil => exact ⟨[], rfl⟩
      | cons v rest => exact ⟨rest, rfl⟩
  | dropListener => exact .inr (.inr (.inr rfl))

theorem hostAppend_eq (s : State) (v : Word) :
    s.hostAppend v = { s with inQ := if s.inClosed then s.inQ else s.inQ ++ [v] } := by
  obtain ⟨_, _, _, _, _, _, _, _, _, inClosed, _, _⟩ := s
  cases inClosed <;> rfl

/-- It leaves CORE as it is. -/
theorem hostAct_coreView {s : State} {slack : Nat} {a : HostAction} (h : a.program = none) : (s.hostAct slack a).coreView = s.coreView := by
  rcases hostAct_cases (s := s) (slack := slack) h with ⟨v, -, e⟩ | e | ⟨q, e⟩ | e <;> rw [e]
  · rw [hostAppend_eq]; rfl
  · rfl
  · rfl
  · rfl

/-- It never makes the input channel look open and empty. -/
theorem inPoll_of_hostAct {s : State} {slack : Nat} {a : HostAction} (h : a.program = none) (he : (s.hostAct slack a).inPoll = .empty) :
    s.inPoll = .empty := by
  rw [inPoll_eq_empty_iff] at he ⊢
  rcases hostAct_cases (s := s) (slack := slack) h with ⟨v, -, e⟩ | e | ⟨q, e⟩ | e <;> rw [e] at he
  · rw [hostAppend_eq] at he
    cases hc : s.inClosed <;> simp_all
  · exact absurd he.2 (by simp [State.hostCloseInput])
  · exact he
  · exact he

/-! ### Being able to step -/

theorem canStep_iff {map : OpcodeMap} {s : State} : s.canStep map = true ↔ s.status = .running ∧ s.heldWith map = false := by
  simp [State.canStep]

/-- Held depends on CORE and on whether the channel looks open and empty. -/
theorem held_of_coreView {map : OpcodeMap} {s t : State} (h : t.coreView = s.coreView) (hp : t.inPoll = .empty → s.inPoll = .empty)
    (ht : t.heldWith map = true) : s.heldWith map = true := by
  simp only [State.coreView, CoreView.mk.injEq] at h
  obtain ⟨h1, h2, h3, h4, -, h5, -⟩ := h
  obtain ⟨hr, d, hf, ⟨i, hw⟩, he⟩ := heldWith_iff.mp ht
  refine heldWith_iff.mpr ⟨h5 ▸ hr, d, fetchInstrWith_congr h1 h2 h3 ▸ hf, ⟨i, ?_⟩, hp he⟩
  rw [← hw]
  simp only [State.writeTarget, State.param, State.checkTarget, State.memRead, State.cell, h1, h2, h3, h4]

/-- A host act other than a reset does not take away that a machine can step. -/
theorem canStep_hostAct {map : OpcodeMap} {s : State} {slack : Nat} {a : HostAction} (h : a.program = none) (hs : s.canStep map = true) :
    (s.hostAct slack a).canStep map = true := by
  obtain ⟨hr, hh⟩ := canStep_iff.mp hs
  have hv := hostAct_coreView (s := s) (slack := slack) h
  refine canStep_iff.mpr ⟨?_, ?_⟩
  · rw [← hr]; exact congrArg CoreView.status hv
  · cases ht : (s.hostAct slack a).heldWith map with
    | false => rfl
    | true => exact absurd (held_of_coreView hv (inPoll_of_hostAct h) ht) (by simp [hh])

/-! ### What weak fairness gives -/

/-- From event `k` on the host does not reset. -/
def NoResetFrom (events : Nat → Event) (k : Nat) : Prop :=
  ∀ j, k ≤ j → ∀ a, events j = .host a → a.program = none

/-- Until the machine steps, it stays able to, and CORE stays as it is. -/
theorem canStep_until_step {s : State} {par : Params} {events : Nat → Event} {k : Nat} (hn : NoResetFrom events k)
    (hs : (s.afterEvents par events k).canStep par.map = true) :
    ∀ d, (∀ j, k ≤ j → j < k + d → events j ≠ .step) →
      (s.afterEvents par events (k + d)).canStep par.map = true ∧
        (s.afterEvents par events (k + d)).coreView = (s.afterEvents par events k).coreView
  | 0, _ => ⟨hs, rfl⟩
  | d + 1, h => by
    obtain ⟨h1, h2⟩ := canStep_until_step hn hs d fun j hk hj => h j hk (by omega)
    cases he : events (k + d) with
    | step => exact absurd he (h (k + d) (by omega) (by omega))
    | host a =>
      have ha := hn (k + d) (by omega) a he
      have e : s.afterEvents par events (k + (d + 1)) = (s.afterEvents par events (k + d)).hostAct par.slack a := by
        show (s.afterEvents par events (k + d)).event par (events (k + d)) = _
        rw [he]; rfl
      rw [e]
      exact ⟨canStep_hostAct ha h1, (hostAct_coreView ha).trans h2⟩

/-- R206, first half: a machine that can step takes that step, unless the host resets it. -/
theorem fair_machine_steps {s : State} {par : Params} {events : Nat → Event} {k : Nat} (hf : s.WeaklyFair par events)
    (hn : NoResetFrom events k) (hs : (s.afterEvents par events k).canStep par.map = true) :
    ∃ j, k ≤ j ∧ events j = .step ∧ (s.afterEvents par events j).canStep par.map = true ∧
      (s.afterEvents par events j).coreView = (s.afterEvents par events k).coreView := by
  by_cases hex : ∃ d, events (k + d) = .step
  · have hmin := fun d => Nat.find_min hex (m := d)
    obtain ⟨h1, h2⟩ := canStep_until_step hn hs (Nat.find hex) fun j hk hj he =>
      hmin (j - k) (by omega) (by rw [Nat.add_sub_cancel' hk]; exact he)
    exact ⟨k + Nat.find hex, by omega, Nat.find_spec hex, h1, h2⟩
  · have never : ∀ j, k ≤ j → events j ≠ .step := fun j hk he =>
      hex ⟨j - k, by rw [Nat.add_sub_cancel' hk]; exact he⟩
    obtain ⟨j, hk, he⟩ := hf k fun j hk => by
      have := (canStep_until_step hn hs (j - k) fun i hi _ => never i hi).1
      rwa [Nat.add_sub_cancel' hk] at this
    exact absurd he (never j hk)

/-- A value or a closure lifts a hold. -/
theorem canStep_of_supplied {map : OpcodeMap} {s : State} {slack : Nat} (h : s.heldWith map = true) :
    (∀ v, (s.hostAct slack (.append v)).canStep map = true) ∧ (s.hostAct slack .closeInput).canStep map = true := by
  obtain ⟨hr, -, -, -, he⟩ := heldWith_iff.mp h
  obtain ⟨hq, hc⟩ := inPoll_eq_empty_iff.mp he
  have lifted : ∀ t : State, t.status = .running → t.inPoll ≠ .empty → t.canStep map = true := fun t ht hp =>
    canStep_iff.mpr ⟨ht, by
      cases hh : t.heldWith map with
      | false => rfl
      | true => obtain ⟨-, -, -, -, he'⟩ := heldWith_iff.mp hh; exact absurd he' hp⟩
  refine ⟨fun v => lifted _ ?_ ?_, lifted _ hr ?_⟩
  · simp [State.hostAct, hostAppend_eq, hr]
  · simp [State.hostAct, hostAppend_eq, inPoll_eq_empty_iff, hc]
  · simp [State.hostAct, State.hostCloseInput, inPoll_eq_empty_iff]

/-- R206, second half: an Input held when the host supplies a value or closes the channel takes a step that is no hold,
with CORE as it was held, unless the host resets. -/
theorem fair_held_input_notices {s : State} {par : Params} {events : Nat → Event} {k : Nat} (hf : s.WeaklyFair par events)
    (hn : NoResetFrom events k) (hh : (s.afterEvents par events k).heldWith par.map = true)
    (he : (∃ v, events k = .host (.append v)) ∨ events k = .host .closeInput) :
    ∃ j, k < j ∧ events j = .step ∧ (s.afterEvents par events j).canStep par.map = true ∧
      (s.afterEvents par events j).coreView = (s.afterEvents par events k).coreView := by
  have supplied : ∃ a, events k = .host a ∧ ((s.afterEvents par events k).hostAct par.slack a).canStep par.map = true := by
    rcases he with ⟨v, he⟩ | he
    · exact ⟨_, he, (canStep_of_supplied hh).1 v⟩
    · exact ⟨_, he, (canStep_of_supplied hh).2⟩
  obtain ⟨a, he, hc⟩ := supplied
  have e : s.afterEvents par events (k + 1) = (s.afterEvents par events k).hostAct par.slack a := by
    show (s.afterEvents par events k).event par (events k) = _
    rw [he]; rfl
  obtain ⟨j, hj, h1, h2, h3⟩ := fair_machine_steps hf (fun i hi => hn i (by omega)) (e ▸ hc)
  exact ⟨j, by omega, h1, h2, by rw [h3, e, hostAct_coreView (hn k (by omega) a he)]⟩

end Sys2Proof.Machine
end

