-- ==== Sys2Proof/Tests/Slice0.lean ====
section
/-! SUPPORT. Tests of one step or one word each, with the source of the expected value beside each test (V, P and section
numbers are those of 95_test_vectors.md), and for each statement with hypotheses a state that meets them. -/

namespace Sys2Proof.Tests

open Sys2Proof Sys2Proof.Machine

/-- A program loaded with slack 1000; cells written as integers. -/
def boot (p : List Int) : State :=
  State.reset.load 1000 (p.map wrap64)

/-- The state after one step. -/
def after (s : State) : State :=
  match step s with
  | .next t => t
  | .fault _ => s
  | .refused _ => s

/-! ### WellFormed: one ill-formed term for each check (30_encoding.md R59) -/

theorem test_wf_refuses_add_immediate : Instr.wf (.add .position .position .immediate) = false := by decide
theorem test_wf_refuses_multiply_immediate : Instr.wf (.multiply .relative .position .immediate) = false := by decide
theorem test_wf_refuses_input_immediate : Instr.wf (.input .immediate) = false := by decide
theorem test_wf_refuses_lessThan_immediate : Instr.wf (.lessThan .position .immediate .immediate) = false := by decide
theorem test_wf_refuses_equals_immediate : Instr.wf (.equals .immediate .position .immediate) = false := by decide
theorem test_wf_accepts_relative : Instr.wf (.add .immediate .immediate .relative) = true := by decide

/-! ### Decoding: words written out from 30_encoding.md R50 (C B A opcode), listed in section 2.1 -/

theorem test_decode_add : decode 22201 = .ok (.add .relative .relative .relative) := by decide
theorem test_decode_add_modes : decode 21101 = .ok (.add .immediate .immediate .relative) := by decide
theorem test_decode_multiply : decode 1002 = .ok (.multiply .position .immediate .position) := by decide
theorem test_decode_input : decode 203 = .ok (.input .relative) := by decide
theorem test_decode_output : decode 104 = .ok (.output .immediate) := by decide
theorem test_decode_jumpIfTrue : decode 1005 = .ok (.jumpIfTrue .position .immediate) := by decide
theorem test_decode_jumpIfFalse : decode 1106 = .ok (.jumpIfFalse .immediate .immediate) := by decide
theorem test_decode_lessThan : decode 1107 = .ok (.lessThan .immediate .immediate .position) := by decide
theorem test_decode_equals : decode 1008 = .ok (.equals .position .immediate .position) := by decide
theorem test_decode_adjust : decode 209 = .ok (.adjustRelativeBase .relative) := by decide
theorem test_decode_halt : decode 99 = .ok .halt := by decide
theorem test_decode_halt_unused_modes : decode 22299 = .ok .halt := by decide
theorem test_decode_high_digits : decode 1000002 = .ok (.multiply .position .position .position) := by decide
theorem test_decode_zero : decode 0 = .error (.unknownOpcode 0) := by decide
theorem test_decode_opcode_98 : decode 98 = .error (.unknownOpcode 98) := by decide
theorem test_decode_mode_3 : decode 399 = .error .unknownMode := by decide
theorem test_decode_unused_mode_3 : decode 30004 = .error .unknownMode := by decide
theorem test_decode_immediate_destination : decode 10008 = .error .immediateDestination := by decide
theorem test_decode_input_immediate : decode 103 = .error .immediateDestination := by decide
theorem test_decode_negative : decode (-99) = .error .negativeWord := by decide
theorem test_encode_relative_add : encode (.add .relative .immediate .relative) = 21201 := by decide
theorem test_table_word : decodeTableWord 8 99 = some .halt := by decide
theorem test_fetch_word : (after (State.reset.withFetchWord 8 99)).cause = .halt := by decide

/-- Program text of 30_encoding.md R64; R65's example word for the first piece. A trailing comma is no program. -/
theorem test_program_text : parseProgram ['2', '1', '2', '0', '1', ',', '1', ',', '-', '1'] = some [21201, 1, -1] := by decide
theorem test_program_text_trailing_comma : parseProgram ['9', '9', ','] = none := by decide

/-- An implementation whose Halt is 98 (00_scope.md R5: the map is a parameter) halts there and refuses 99; and a reset
with slack 1001 makes 1002 cells of a program of one. -/
theorem test_other_opcode_map :
    stepWith [(98, .halt)] (boot [98]) = .next ((boot [98]).haltWith .halt) ∧
      stepWith [(98, .halt)] (boot [99]) = .next ((boot [99]).takeFault (.malformedProgram 99)) := ⟨rfl, rfl⟩
theorem test_standard_params : Params.standard.wf = true := by decide
theorem test_other_slack : ((boot [99]).hostAct 1001 (.reset [99])).memLen = 1002 := by decide

/-! ### The ten instructions -/

/-- Section 2.3. -/
theorem test_add_wraps : (after (boot [1101, 9223372036854775807, 1, 5, 99, 0])).cell 5 = wrap64 (-9223372036854775808) := by
  decide

/-- Section 2.3: the destination is a source and the next instruction. -/
theorem test_add_aliases : (after (boot [1001, 4, 1, 4, 98])).cell 4 = 99 ∧ (after (boot [1001, 4, 1, 4, 98])).ip = 4 := by
  decide

/-- Section 2.4. -/
theorem test_multiply_wraps :
    (after (boot [1102, 3037000500, 3037000500, 5, 99, 7])).cell 5 = wrap64 (-9223372036709301616) := by decide

/-- Section 2.4. -/
theorem test_multiply_signs : (after (boot [1102, -3, 5, 5, 99, 7])).cell 5 = wrap64 (-15) := by decide

/-- 42_io.md R105, worked example. -/
theorem test_input_stores :
    (after { boot [3, 7, 4, 7, 1105, 1, 0, 0] with inQ := [5, -3] }).cell 7 = 5 ∧
      (after { boot [3, 7, 4, 7, 1105, 1, 0, 0] with inQ := [5, -3] }).inQ = [-3] := by decide

/-- Section 2.5: a bad destination faults before the closed channel is looked at. -/
theorem test_input_fault_first :
    (after { boot [3, -1] with inClosed := true }).cause = .outOfBoundsAccess ∧
      (after { boot [3, -1] with inClosed := true }).faultInfo = -1 := by decide

/-- V2. -/
theorem test_output_sends :
    (after (boot [104, 1125899906842624, 99])).outQ = [1125899906842624] ∧
      (after (boot [104, 1125899906842624, 99])).lastOutput = some 1125899906842624 := by decide

/-- Section 2.6: listener dropped. -/
theorem test_output_closed :
    (after { boot [104, 5, 99] with outClosed := true }).cause = .outputChannelClosed ∧
      (after { boot [104, 5, 99] with outClosed := true }).lastOutput = none := by decide

/-- Section 2.7: the jump to a negative target completes. -/
theorem test_jumpIfTrue_negative : (after (boot [1105, 1, -5])).ip = -5 ∧ (after (boot [1105, 1, -5])).status = .running := by
  decide

/-- Section 2.7: not taken, but its bad target is resolved. -/
theorem test_jumpIfTrue_resolves_target :
    (after (boot [5, 4, -1, 99, 0])).cause = .outOfBoundsAccess ∧ (after (boot [5, 4, -1, 99, 0])).faultInfo = -1 := by decide

/-- Section 2.7. -/
theorem test_jumpIfFalse_taken : (after (boot [1106, 0, 4, 99, 104, 7, 99])).ip = 4 := by decide

/-- Section 2.7. -/
theorem test_jumpIfFalse_not_taken : (after (boot [1106, 3, 4, 99, 104, 7, 99])).ip = 3 := by decide

/-- Section 2.8. -/
theorem test_lessThan_signed : (after (boot [1107, -1, 0, 5, 99, 9])).cell 5 = 1 := by decide

/-- Section 2.8. -/
theorem test_lessThan_extremes :
    (after (boot [1107, 9223372036854775807, -9223372036854775808, 5, 99, 9])).cell 5 = 0 := by decide

/-- Section 2.8. -/
theorem test_equals_true : (after (boot [1108, 3, 3, 5, 99, 9])).cell 5 = 1 := by decide

/-- Section 2.8. -/
theorem test_equals_false : (after (boot [1108, 3, 4, 5, 99, 9])).cell 5 = 0 := by decide

/-- Section 2.9: the operand is read with the old base, `M[1 + 5] = 7`. -/
theorem test_adjust_relative : (after { boot [109, 5, 209, 1, 99, 0, 7] with ip := 2, rb := 5 }).rb = 12 := by decide

/-- Section 2.9: the sum wraps. -/
theorem test_adjust_wraps :
    (after { boot [109, 1, 99] with rb := wrap64 9223372036854775807 }).rb = wrap64 (-9223372036854775808) := by decide

/-- 40_execution_cycle.md R71: Halt in the last cell (`MEMLEN = 1001`). -/
theorem test_halt_last_cell :
    (after ({ boot [0] with ip := 1000 }.setCell 1000 99)).cause = .halt ∧
      (after ({ boot [0] with ip := 1000 }.setCell 1000 99)).ip = 1000 := by decide

/-! ### Faults (sections 2.2 and 2.11) -/

theorem test_fault_empty_program : (after (boot [])).cause = .malformedProgram ∧ (after (boot [])).faultInfo = 0 := by decide

theorem test_fault_first_operand : (after (boot [1, -1, 0, -2, 99])).faultInfo = -1 := by decide

theorem test_fault_address_overflow :
    (after { boot [0, 0, 204, 9223372036854775807, 99] with ip := 2, rb := wrap64 9223372036854775807 }).faultInfo = -2 := by
  decide

theorem test_fault_write_past_end :
    (after (boot [1101, 1, 1, 1005, 99])).faultInfo = 1005 ∧ (after (boot [1101, 1, 1, 1004, 99])).cell 1004 = 2 := by decide

theorem test_fault_malformed_before_operands :
    (after ({ boot [0] with ip := 1000 }.setCell 1000 11101)).cause = .malformedProgram := by decide

end Sys2Proof.Tests
end

