-- ==== Sys2Proof/Tests/Witnesses.lean ====
section
/-! SUPPORT. For each statement of Obligations.lean that has hypotheses, a concrete state that meets them all, with a
witness for each clause at a boundary of its range. No proof of a statement stands here. -/

namespace Sys2Proof.Tests

open Sys2Proof Sys2Proof.Machine

/-! ### Encoding -/

theorem witness_DecodeEncodeRoundTrip :
    opcodeMap.wf = true ∧ (Instr.add .immediate .immediate .relative).WellFormed ∧
      (encodeWith opcodeMap (.add .immediate .immediate .relative)).toNat + 100000 * 3 < 2 ^ 63 := by decide

theorem witness_OpcodeIsWordMod100 : decode 1002 = .ok (.multiply .position .immediate .position) := by decide

theorem witness_HighDigitsAreNotRead :
    0 ≤ (100099 : Word).toInt ∧ 0 ≤ (99 : Word).toInt ∧ (100099 : Word).toInt % 100000 = (99 : Word).toInt % 100000 := by
  decide

/-- `DecodeReadsDigitFields` and `MalformedWordsExactly` are equivalences; both sides occur. -/
theorem witness_DecodeReadsDigitFields : decode 100099 = .ok .halt ∧ decode 399 = .error .unknownMode := by decide

/-! ### Memory and reset -/

/-- First cell, last cell, and one outside at either end. -/
theorem witness_MemReadReturnsCellOrFaults :
    (0 ≤ (0 : Int) ∧ (0 : Int) < (boot [99]).memLen) ∧ (0 ≤ (1000 : Int) ∧ (1000 : Int) < (boot [99]).memLen) ∧
      ((-1 : Int) < 0 ∨ (-1 : Int) ≥ (boot [99]).memLen) ∧ ((1001 : Int) < 0 ∨ (1001 : Int) ≥ (boot [99]).memLen) := by decide

theorem boot_halt_inv : (boot [99]).Inv :=
  ⟨by decide, by decide, by decide, by decide, by decide, by decide⟩

/-- The invariant, with the same four indices. -/
theorem witness_MemWriteChangesOneCell :
    (boot [99]).Inv ∧ (0 ≤ (0 : Int) ∧ (0 : Int) < (boot [99]).memLen) ∧ (0 ≤ (1000 : Int) ∧ (1000 : Int) < (boot [99]).memLen) ∧
      ((-1 : Int) < 0 ∨ (-1 : Int) ≥ (boot [99]).memLen) ∧ ((1001 : Int) < 0 ∨ (1001 : Int) ≥ (boot [99]).memLen) :=
  ⟨boot_halt_inv, by decide, by decide, by decide, by decide⟩

theorem witness_EqualReadsGiveEqualMemories :
    Memory.wf [(3, 5)] = true ∧ Memory.wf (Memory.write (Memory.write [] 4 1) 3 5 |>.write 4 0) = true ∧
      ∀ i, Memory.read [(3, 5)] i = Memory.read (Memory.write (Memory.write [] 4 1) 3 5 |>.write 4 0) i :=
  ⟨by decide, by decide, fun _ => rfl⟩

/-- Slack 1000, first and last guaranteed index; slack 1001, the first index the guarantee does not cover. -/
theorem witness_SlackGuaranteesProgramPlus1000 :
    1000 ≤ 1000 ∧ 0 ≤ (0 : Int) ∧ (0 : Int) < ([99] : List Word).length + 1000 ∧
      (1000 : Int) < ([99] : List Word).length + 1000 ∧ 1000 ≤ 1001 ∧ (([99] : List Word).length : Int) + 1000 ≤ 1001 := by
  decide

theorem witness_ResetGivesStartState :
    1000 ≤ Config.slack ∧ ([1101, 99] : List Word).length + Config.slack ≤ 2 ^ 62 ∧ 1 < ([1101, 99] : List Word).length ∧
      ([1101, 99] : List Word).length ≤ 2 := by decide

theorem witness_FirstFetchReadsCellZero : 1000 ≤ Config.slack ∧ decode 99 = .ok .halt := by decide

theorem witness_ResetMeetsInvariants : ([] : List Word).length + Config.slack ≤ 2 ^ 62 := by decide

/-- `104,-5` spelled digit by digit; and 2^63, the first integer that does not fit. -/
theorem witness_ProgramTextSpellsItsCells :
    (∀ t ∈ [(false, [1, 0, 4]), (true, [5])], t.2 ≠ ([] : List (Fin 10)) ∧ -2 ^ 63 ≤ Claims.spelled t ∧ Claims.spelled t < 2 ^ 63) ∧
      2 ^ 63 ≤ Claims.spelled (false, [9, 2, 2, 3, 3, 7, 2, 0, 3, 6, 8, 5, 4, 7, 7, 5, 8, 0, 8]) := by decide

/-! ### Fetch, decode, step -/

/-- In range at both ends; outside at both ends; the last cell with Halt and with a longer instruction. -/
theorem witness_FetchReadsTheCellAtIp :
    (boot [99]).status = .running ∧ (0 ≤ (boot [99]).ip.toInt ∧ (boot [99]).ip.toInt < (boot [99]).memLen) ∧
      ({ boot [99] with ip := -1 } : State).ip.toInt < 0 ∧
      ({ boot [99] with ip := 1001 } : State).ip.toInt ≥ ({ boot [99] with ip := 1001 } : State).memLen ∧
      ({ boot [99] with ip := 1000 } : State).ip.toInt = ({ boot [99] with ip := 1000 } : State).memLen - 1 ∧
      decode ((({ boot [99] with ip := 1000 } : State).setCell 1000 99).cell 1000) = .ok .halt ∧
      decode ((({ boot [99] with ip := 1000 } : State).setCell 1000 104).cell 1000) = .ok (.output .immediate) := by decide

theorem witness_StepRunsTheDecodedInstruction :
    (boot [104, 5, 99]).status = .running ∧ 0 ≤ (boot [104, 5, 99]).ip.toInt ∧
      (boot [104, 5, 99]).ip.toInt < (boot [104, 5, 99]).memLen ∧
      decode ((boot [104, 5, 99]).cell (boot [104, 5, 99]).ip.toInt.toNat) = .ok (.output .immediate) := by decide

theorem witness_MalformedWordTakesFault :
    (boot [-1]).status = .running ∧ 0 ≤ (boot [-1]).ip.toInt ∧ (boot [-1]).ip.toInt < (boot [-1]).memLen ∧
      decode ((boot [-1]).cell (boot [-1]).ip.toInt.toNat) = .error .negativeWord := by decide

theorem witness_TerminalStatesDoNotStep :
    (after (boot [99])).status = .halted ∧ (after (boot [0])).status = .faulted := by decide

/-- Each of the five outcomes occurs. -/
theorem witness_FiveOutcomesOfAStep :
    (boot [104, 5, 99]).stepKind = .next ∧ (boot [99]).stepKind = .halt ∧ (boot [0]).stepKind = .fault ∧
      (boot [3, 5, 99]).stepKind = .hold ∧ (after (boot [99])).stepKind = .noStep := by decide

/-! ### Operands -/

/-- The last parameter cell that exists and the first that does not. -/
theorem witness_ParameterIsTheCellAtIpPlusK :
    0 ≤ ({ boot [99] with ip := 999 } : State).ip.toInt ∧
      ({ boot [99] with ip := 999 } : State).ip.toInt + (1 : Nat) < (boot [99]).memLen ∧
      ({ boot [99] with ip := 999 } : State).ip.toInt + (2 : Nat) ≥ (boot [99]).memLen := by decide

theorem witness_ImmediateOperandIsTheParameter : decode 104 = .ok (.output .immediate) := by decide

/-- A parameter that names the first cell, the last cell, a negative index, and the first index past the end; and one
that cannot be fetched, here and for `RelativeOperandAddsTheBase`. -/
theorem witness_PositionOperandIsTheCellNamed :
    ((boot [4, 0]).param 1 = .ok 0 ∧ 0 ≤ (0 : Word).toInt ∧ (0 : Word).toInt < (boot [4, 0]).memLen) ∧
      ((boot [4, 1001]).param 1 = .ok 1001 ∧ 0 ≤ (1001 : Word).toInt ∧ (1001 : Word).toInt < (boot [4, 1001]).memLen) ∧
      ((boot [4, -1]).param 1 = .ok (-1) ∧ (-1 : Word).toInt < 0) ∧
      ((boot [4, 1002]).param 1 = .ok 1002 ∧ (1002 : Word).toInt ≥ (boot [4, 1002]).memLen) ∧
      State.param { boot [99] with ip := 1000 } 1 = .error (.outOfBoundsAccess 1001) := by decide

/-- The same four indices, as sums with `RB = 10`. -/
theorem witness_RelativeOperandAddsTheBase :
    (({ boot [204, -10] with rb := 10 } : State).param 1 = .ok (-10) ∧ 0 ≤ (-10 : Word).toInt + (10 : Word).toInt ∧
        (-10 : Word).toInt + (10 : Word).toInt < (boot [204, -10]).memLen) ∧
      (({ boot [204, 991] with rb := 10 } : State).param 1 = .ok 991 ∧
        (991 : Word).toInt + (10 : Word).toInt < (boot [204, 991]).memLen) ∧
      (({ boot [204, -11] with rb := 10 } : State).param 1 = .ok (-11) ∧ (-11 : Word).toInt + (10 : Word).toInt < 0) ∧
      (({ boot [204, 992] with rb := 10 } : State).param 1 = .ok 992 ∧
        (992 : Word).toInt + (10 : Word).toInt ≥ (boot [204, 992]).memLen) := by decide

/-- A sum above the 64-bit range and one below it, and the same at parameter 3. -/
theorem witness_OverflowingAddressIsOutOfBounds :
    (State.Inv { boot [204, 1] with rb := wrap64 9223372036854775807 } ∧
      State.param { boot [204, 1] with rb := wrap64 9223372036854775807 } 1 = .ok 1 ∧
      (1 : Word).toInt + (wrap64 9223372036854775807).toInt ≥ 2 ^ 63) ∧
    (State.Inv { boot [204, -1] with rb := wrap64 (-9223372036854775808) } ∧
      State.param { boot [204, -1] with rb := wrap64 (-9223372036854775808) } 1 = .ok (-1) ∧
      (-1 : Word).toInt + (wrap64 (-9223372036854775808)).toInt < -2 ^ 63) ∧
    (State.Inv { boot [21101, 1, 2, 1] with rb := wrap64 9223372036854775807 } ∧
      State.param { boot [21101, 1, 2, 1] with rb := wrap64 9223372036854775807 } 3 = .ok 1) :=
  ⟨⟨⟨by decide, by decide, by decide, by decide, by decide, by decide⟩, by decide, by decide⟩,
    ⟨⟨by decide, by decide, by decide, by decide, by decide, by decide⟩, by decide, by decide⟩,
    ⟨⟨by decide, by decide, by decide, by decide, by decide, by decide⟩, by decide⟩⟩

/-! ### The ten instructions -/

/-- All three modes at once; also for Multiply, LessThan and Equals. -/
theorem witness_AddStoresWrappedSum :
    State.Inv { boot [20101, 7, 3, -5] with rb := 10 } ∧ State.Readable { boot [20101, 7, 3, -5] with rb := 10 } 1 .immediate ∧
      State.Readable { boot [20101, 7, 3, -5] with rb := 10 } 2 .position ∧
      State.Writable { boot [20101, 7, 3, -5] with rb := 10 } 3 .relative :=
  ⟨⟨by decide, by decide, by decide, by decide, by decide, by decide⟩, ⟨by decide, by decide⟩, ⟨by decide, by decide⟩,
    ⟨by decide, by decide, by decide⟩⟩

theorem witness_MultiplyStoresWrappedProduct :
    State.Inv (boot [1102, 3, 5, 5]) ∧ State.Readable (boot [1102, 3, 5, 5]) 1 .immediate ∧
      State.Readable (boot [1102, 3, 5, 5]) 2 .immediate ∧ State.Writable (boot [1102, 3, 5, 5]) 3 .position :=
  ⟨⟨by decide, by decide, by decide, by decide, by decide, by decide⟩, ⟨by decide, by decide⟩, ⟨by decide, by decide⟩,
    ⟨by decide, by decide, by decide⟩⟩

theorem witness_LessThanStoresTruthValue :
    State.Inv (boot [1107, -1, 0, 5]) ∧ State.Readable (boot [1107, -1, 0, 5]) 1 .immediate ∧
      State.Readable (boot [1107, -1, 0, 5]) 2 .immediate ∧ State.Writable (boot [1107, -1, 0, 5]) 3 .position :=
  ⟨⟨by decide, by decide, by decide, by decide, by decide, by decide⟩, ⟨by decide, by decide⟩, ⟨by decide, by decide⟩,
    ⟨by decide, by decide, by decide⟩⟩

theorem witness_EqualsStoresTruthValue :
    State.Inv (boot [8, 0, 1, 5]) ∧ State.Readable (boot [8, 0, 1, 5]) 1 .position ∧
      State.Readable (boot [8, 0, 1, 5]) 2 .position ∧ State.Writable (boot [8, 0, 1, 5]) 3 .position :=
  ⟨⟨by decide, by decide, by decide, by decide, by decide, by decide⟩, ⟨by decide, by decide⟩, ⟨by decide, by decide⟩,
    ⟨by decide, by decide, by decide⟩⟩

theorem witness_InputStoresTheHead :
    State.Inv { boot [3, 7] with inQ := [5, -3] } ∧ State.Writable { boot [3, 7] with inQ := [5, -3] } 1 .position ∧
      State.inQ { boot [3, 7] with inQ := [5, -3] } = 5 :: [-3] :=
  ⟨⟨by decide, by decide, by decide, by decide, by decide, by decide⟩, ⟨by decide, by decide, by decide⟩, by decide⟩

theorem witness_OutputAppendsAndRecords :
    State.Inv (boot [4, 3, 99, -17]) ∧ State.Readable (boot [4, 3, 99, -17]) 1 .position ∧
      (boot [4, 3, 99, -17]).outClosed = false :=
  ⟨⟨by decide, by decide, by decide, by decide, by decide, by decide⟩, ⟨by decide, by decide⟩, by decide⟩

/-- Both clauses: a tested operand that is 0, and one that is not. -/
theorem witness_JumpIfTrueTransfersOnNonZero :
    (State.Inv (boot [1105, -1, 5]) ∧ State.Readable (boot [1105, -1, 5]) 1 .immediate ∧
      State.Readable (boot [1105, -1, 5]) 2 .immediate ∧ ((boot [1105, -1, 5]).operandValue 1 .immediate).toInt ≠ 0) ∧
    (State.Inv (boot [1105, 0, 5]) ∧ State.Readable (boot [1105, 0, 5]) 1 .immediate ∧
      State.Readable (boot [1105, 0, 5]) 2 .immediate ∧ ((boot [1105, 0, 5]).operandValue 1 .immediate).toInt = 0) :=
  ⟨⟨⟨by decide, by decide, by decide, by decide, by decide, by decide⟩, ⟨by decide, by decide⟩, ⟨by decide, by decide⟩,
      by decide⟩,
    ⟨⟨by decide, by decide, by decide, by decide, by decide, by decide⟩, ⟨by decide, by decide⟩, ⟨by decide, by decide⟩,
      by decide⟩⟩

theorem witness_JumpIfFalseTransfersOnZero :
    (State.Inv (boot [1106, 0, 4]) ∧ State.Readable (boot [1106, 0, 4]) 1 .immediate ∧
      State.Readable (boot [1106, 0, 4]) 2 .immediate ∧ ((boot [1106, 0, 4]).operandValue 1 .immediate).toInt = 0) ∧
    (State.Inv (boot [1106, 3, 4]) ∧ State.Readable (boot [1106, 3, 4]) 1 .immediate ∧
      State.Readable (boot [1106, 3, 4]) 2 .immediate ∧ ((boot [1106, 3, 4]).operandValue 1 .immediate).toInt ≠ 0) :=
  ⟨⟨⟨by decide, by decide, by decide, by decide, by decide, by decide⟩, ⟨by decide, by decide⟩, ⟨by decide, by decide⟩,
      by decide⟩,
    ⟨⟨by decide, by decide, by decide, by decide, by decide, by decide⟩, ⟨by decide, by decide⟩, ⟨by decide, by decide⟩,
      by decide⟩⟩

theorem witness_AdjustAddsToRelativeBase :
    State.Inv { boot [209, 0] with rb := 1 } ∧ State.Readable { boot [209, 0] with rb := 1 } 1 .relative :=
  ⟨⟨by decide, by decide, by decide, by decide, by decide, by decide⟩, ⟨by decide, by decide⟩⟩

/-! ### Input without a value, Output without a listener, faults -/

theorem witness_InputOnClosedChannelHalts :
    State.Writable { boot [3, 1, 104] with inClosed := true } 1 .position ∧
      State.inQ { boot [3, 1, 104] with inClosed := true } = [] ∧
      State.inClosed { boot [3, 1, 104] with inClosed := true } = true :=
  ⟨⟨by decide, by decide, by decide⟩, by decide, by decide⟩

theorem witness_InputHoldsUntilTheHostActs :
    State.Inv (boot [3, 9]) ∧ State.Writable (boot [3, 9]) 1 .position ∧ (boot [3, 9]).inQ = [] ∧
      (boot [3, 9]).inClosed = false :=
  ⟨⟨by decide, by decide, by decide, by decide, by decide, by decide⟩, ⟨by decide, by decide, by decide⟩, by decide, by decide⟩

theorem witness_OutputWithoutListenerFaults :
    State.Readable { boot [104, 5] with outClosed := true } 1 .immediate ∧
      State.outClosed { boot [104, 5] with outClosed := true } = true :=
  ⟨⟨by decide, by decide⟩, by decide⟩

/-- A bad read operand of Add with a bad destination behind it, and a bad destination of Input. -/
theorem witness_FirstBadOperandFaults :
    (Instr.add .position .position .position).WellFormed ∧
      (boot [1, -1, 0, -2, 99]).firstBadIndex (Instr.add .position .position .position).operands = some (-1) ∧
      (Instr.input .position).WellFormed ∧
      (boot [3, 1002]).firstBadIndex (Instr.input .position).operands = some 1002 := by decide

theorem witness_FaultsArePrecise :
    (boot [1, -1, 0, 0]).status = .running ∧ step (boot [1, -1, 0, 0]) = .next (after (boot [1, -1, 0, 0])) ∧
      (after (boot [1, -1, 0, 0])).status = .faulted :=
  ⟨by decide, rfl, by decide⟩

/-! ### Whole-machine rules -/

theorem witness_StepKeepsInvariant :
    (boot [1101, 50, 49, 4, 0]).Inv ∧ step (boot [1101, 50, 49, 4, 0]) = .next (after (boot [1101, 50, 49, 4, 0])) :=
  ⟨⟨by decide, by decide, by decide, by decide, by decide, by decide⟩, rfl⟩

/-- A step into a terminal state, from a state that meets both hypotheses. -/
theorem witness_StepKeepsEndExplained :
    (boot [99]).Inv ∧ (boot [99]).EndExplained ∧ step (boot [99]) = .next (after (boot [99])) ∧
      (after (boot [99])).cause = .halt :=
  ⟨boot_halt_inv, trivial, rfl, by decide⟩

/-- A reset, a start of a run with channels of its own, a dropped listener; and the channel acts where their clauses split:
an append to an open and to a closed input, a take with a listener, without one, and from an empty queue. -/
theorem witness_HostActionsChangeOnlyTheirPart :
    ((boot [99]).Inv ∧ (boot [99]).EndExplained ∧
      ∀ p, (HostAction.reset [wrap64 99]).program = some p → p.length + Config.slack ≤ 2 ^ 62) ∧
    HostAction.program .take = none ∧ (HostAction.reset [99]).binds = none ∧
    (HostAction.startRun [99] ⟨[7], false, [], false⟩).binds = some ⟨[7], false, [], false⟩ ∧
    (boot [99]).hostDropListener.outClosed = true ∧ HostAction.take ≠ .dropListener ∧
    ((boot [3]).inClosed = false ∧ (boot [3]).hostCloseInput.inClosed = true) ∧
    (State.outClosed { boot [4] with outQ := [1, 2] } = false ∧
      (State.hostDropListener { boot [4] with outQ := [1, 2] }).outClosed = true ∧ (boot [4]).outQ = []) :=
  ⟨⟨boot_halt_inv, trivial, fun p h => by cases h; decide⟩, rfl, rfl, rfl, rfl, nofun, ⟨rfl, rfl⟩, rfl, rfl, rfl⟩

/-- The host closes the input, the run ends, and the next run has an open input again (70_reset_and_hazards.md R193). -/
theorem test_startRun_fresh_channel :
    (((boot [3, 5, 99]).hostCloseInput.hostAct 1000 (.startRun [3, 5, 99] ⟨[7], false, [], false⟩)).inPoll = .value 7) ∧
      ((boot [3, 5, 99]).hostCloseInput.hostAct 1000 (.reset [3, 5, 99])).inPoll = .closed := by decide

/-- One step of each of the five endings, each from a running state. -/
theorem witness_RunsEndInFiveWays :
    ((boot [99]).status = .running ∧ step (boot [99]) = .next (after (boot [99])) ∧
      (after (boot [99])).status ≠ .running ∧ (after (boot [99])).cause = .halt) ∧
    (State.status { boot [3, 1] with inClosed := true } = .running ∧
      step { boot [3, 1] with inClosed := true } = .next (after { boot [3, 1] with inClosed := true }) ∧
      (after { boot [3, 1] with inClosed := true }).cause = .inputClosed) ∧
    ((boot [-1]).status = .running ∧ step (boot [-1]) = .next (after (boot [-1])) ∧
      (after (boot [-1])).cause = .malformedProgram) ∧
    ((boot [4, -1]).status = .running ∧ step (boot [4, -1]) = .next (after (boot [4, -1])) ∧
      (after (boot [4, -1])).cause = .outOfBoundsAccess) ∧
    (State.status { boot [104, 5] with outClosed := true } = .running ∧
      step { boot [104, 5] with outClosed := true } = .next (after { boot [104, 5] with outClosed := true }) ∧
      (after { boot [104, 5] with outClosed := true }).cause = .outputChannelClosed) :=
  ⟨⟨by decide, rfl, by decide, by decide⟩, ⟨by decide, rfl, by decide⟩, ⟨by decide, rfl, by decide⟩,
    ⟨by decide, rfl, by decide⟩, ⟨by decide, rfl, by decide⟩⟩

theorem witness_OnlyAdjustChangesRelativeBase :
    step (boot [109, 5]) = .next (after (boot [109, 5])) ∧ (after (boot [109, 5])).rb ≠ (boot [109, 5]).rb :=
  ⟨rfl, by decide⟩

/-- A completed Output; the values before and after differ. -/
theorem witness_LastOutputIsWrittenOnlyByOutput :
    (boot [104, 5]).status = .running ∧ (boot [104, 5]).fetchInstr = .ok (.output .immediate) ∧
      step (boot [104, 5]) = .next (after (boot [104, 5])) ∧ (after (boot [104, 5])).status = .running ∧
      (after (boot [104, 5])).lastOutput ≠ (boot [104, 5]).lastOutput ∧ HostAction.take.program = none :=
  ⟨by decide, by decide, rfl, by decide, by decide, rfl⟩

/-- An Input that takes and an Output that sends. -/
theorem witness_ChannelsChangeOnlyByInputAndOutput :
    step { boot [3, 5] with inQ := [7] } = .next (after { boot [3, 5] with inQ := [7] }) ∧
      (after { boot [3, 5] with inQ := [7] }).inQ ≠ State.inQ { boot [3, 5] with inQ := [7] } ∧
      step (boot [104, 5]) = .next (after (boot [104, 5])) ∧
      (after (boot [104, 5])).outQ ≠ (boot [104, 5]).outQ :=
  ⟨rfl, by decide, rfl, by decide⟩

/-- An instruction with a destination, one without, a decode fault, a terminal state. -/
theorem witness_StepsWriteOnlyTheirDestination :
    ((boot [1101, 50, 49, 4, 0]).Inv ∧ step (boot [1101, 50, 49, 4, 0]) = .next (after (boot [1101, 50, 49, 4, 0])) ∧
      (boot [1101, 50, 49, 4, 0]).fetchInstr = .ok (.add .immediate .immediate .position) ∧
      (Instr.add .immediate .immediate .position).destination = some .position) ∧
    ((boot [99]).Inv ∧ step (boot [99]) = .next (after (boot [99])) ∧ (boot [99]).fetchInstr = .ok .halt ∧
      Instr.halt.destination = none) ∧
    ((boot []).Inv ∧ step (boot []) = .next (after (boot [])) ∧
      (boot []).fetchInstr = .error (.malformedProgram 0)) ∧
    ((after (boot [99])).Inv ∧ step (after (boot [99])) = .next (after (boot [99])) ∧
      (after (boot [99])).status ≠ .running) :=
  ⟨⟨⟨by decide, by decide, by decide, by decide, by decide, by decide⟩, rfl, by decide, by decide⟩,
    ⟨boot_halt_inv, rfl, by decide, by decide⟩,
    ⟨⟨by decide, by decide, by decide, by decide, by decide, by decide⟩, rfl, by decide⟩,
    ⟨⟨by decide, by decide, by decide, by decide, by decide, by decide⟩, rfl, by decide⟩⟩

/-- Two environments that differ behind the head of the queue and in what was sent before. -/
theorem witness_CoreDependsOnlyOnPollAndListener :
    State.coreView { boot [3, 5] with inQ := [7] } = State.coreView { boot [3, 5] with inQ := [7, 8], outQ := [1] } ∧
      State.inPoll { boot [3, 5] with inQ := [7] } = State.inPoll { boot [3, 5] with inQ := [7, 8], outQ := [1] } ∧
      State.outClosed { boot [3, 5] with inQ := [7] } = State.outClosed { boot [3, 5] with inQ := [7, 8], outQ := [1] } ∧
      step { boot [3, 5] with inQ := [7] } = .next (after { boot [3, 5] with inQ := [7] }) :=
  ⟨by decide, by decide, by decide, rfl⟩

/-- Program P3: the destination is the next instruction's word; and an Input whose destination is. -/
theorem witness_StoreIsSeenByTheNextFetch :
    (State.Inv (boot [1101, 50, 49, 4, 0]) ∧ State.Readable (boot [1101, 50, 49, 4, 0]) 1 .immediate ∧
      State.Readable (boot [1101, 50, 49, 4, 0]) 2 .immediate ∧ State.Writable (boot [1101, 50, 49, 4, 0]) 3 .position ∧
      (boot [1101, 50, 49, 4, 0]).operandIndex 3 .position = (boot [1101, 50, 49, 4, 0]).ip.toInt + 4) ∧
    (State.Inv { boot [3, 2] with inQ := [99] } ∧ State.Writable { boot [3, 2] with inQ := [99] } 1 .position ∧
      State.inQ { boot [3, 2] with inQ := [99] } = 99 :: [] ∧
      State.operandIndex { boot [3, 2] with inQ := [99] } 1 .position = (State.ip { boot [3, 2] with inQ := [99] }).toInt + 2) :=
  ⟨⟨⟨by decide, by decide, by decide, by decide, by decide, by decide⟩, ⟨by decide, by decide⟩, ⟨by decide, by decide⟩,
      ⟨by decide, by decide, by decide⟩, by decide⟩,
    ⟨⟨by decide, by decide, by decide, by decide, by decide, by decide⟩, ⟨by decide, by decide, by decide⟩, rfl, by decide⟩⟩

/-! ### Registers as the host sees them, channels, several machines -/

theorem witness_InspectOnlyTerminalStates :
    (boot [99]).status = .running ∧ (after (boot [99])).status ≠ .running := by decide

/-- Each answer of `InPoll`. -/
theorem witness_InPollShowsHeadEmptyOrClosed :
    State.inPoll { boot [3] with inQ := [7] } = .value 7 ∧ (boot [3]).inPoll = .empty ∧
      State.inPoll { boot [3] with inClosed := true } = .closed := by decide

theorem witness_ClosedInputStaysClosed :
    (boot [3, 5]).hostCloseInput.inClosed = true ∧ (HostAction.append 7).binds = none ∧
      step (boot [3, 5]).hostCloseInput = .next (after (boot [3, 5]).hostCloseInput) :=
  ⟨by decide, rfl, rfl⟩

theorem witness_ChannelsAreFifo :
    (boot [3]).inClosed = false ∧ State.inQ { boot [3] with inQ := [7, 8] } = 7 :: [8] ∧
      (boot [4]).outClosed = false ∧ State.outClosed { boot [4] with outQ := [1, 2] } = false ∧
      State.outQ { boot [4] with outQ := [1, 2] } = 1 :: [2] := by decide

/-- A ring of three, so that one machine is neither the one that steps nor the next: the first sends. -/
def ring : Network := Network.build 1000 [[104, 5, 99], [3, 5, 99], [3, 5, 99]]

theorem ring_inv : ring.Inv := by
  intro i n d hn hd
  simp only [ring, Network.build, List.getElem?_map, Option.map_eq_some_iff] at hn hd
  obtain ⟨_, -, rfl⟩ := hn
  obtain ⟨_, -, rfl⟩ := hd
  exact ⟨rfl, rfl, rfl⟩

theorem witness_RingEventsKeepRingInvariant : ring.Inv := ring_inv

theorem witness_RingStepDeliversDownstream :
    2 ≤ ring.length ∧ ring.Inv ∧ (∃ n d, ring[0]? = some n ∧ ring[(0 + 1) % ring.length]? = some d ∧
      stepWith opcodeMap n.core = .next (after n.core)) ∧ 2 ≠ 0 ∧ 2 ≠ (0 + 1) % ring.length :=
  ⟨by decide, ring_inv, ⟨_, _, rfl, rfl, rfl⟩, by decide, by decide⟩

/-- A closed input whose upstream machine has ended: the last clause. -/
def quietRing : Network := [⟨after (boot [99]), true, false⟩, ⟨(boot [3, 5]).hostCloseInput, false, true⟩]

theorem quietRing_inv : quietRing.Inv := by
  intro i n d hn hd
  match i with
  | 0 => cases hn; cases hd; decide
  | 1 => cases hn; cases hd; decide
  | i + 2 => cases hn

/-- Two machines that both wait, and nobody to send. -/
def stuckRing : Network := Network.build 1000 [[3, 5, 99], [3, 5, 99]]

theorem witness_DeadlockedNetworkIsStuck :
    stuckRing.deadlocked opcodeMap = true ∧ ∀ n ∈ stuckRing, n.core.outQ = [] ∧ n.settle = n := by decide

end Sys2Proof.Tests
end

/-! ### LAST_OUTPUT: who writes it, and that nothing reads it (10_state.md R15; 42_io.md R108) -/

namespace Sys2Proof.Machine

/-! #### The one write -/

/-- The state after an Output that completes: the value is sent and recorded (42_io.md R108). -/
def State.afterOutput (s : State) (a : Mode) : State :=
  (State.setLastOutput { s with outQ := s.outQ ++ [s.operandValue 1 a] } (s.operandValue 1 a)).advance 2

@[simp] theorem State.afterOutput_lastOutput (s : State) (a : Mode) :
    (s.afterOutput a).lastOutput = some (s.operandValue 1 a) := rfl

@[simp] theorem State.afterOutput_outQ (s : State) (a : Mode) :
    (s.afterOutput a).outQ = s.outQ ++ [s.operandValue 1 a] := rfl

@[simp] theorem State.afterOutput_status (s : State) (a : Mode) : (s.afterOutput a).status = s.status := rfl

theorem effect_output_iff {s t : State} {a : Mode} :
    Effect s t (.output a) ↔
      (s.outClosed = true ∧ t = s.takeFault (.outputChannelClosed (s.operandValue 1 a))) ∨
        (s.outClosed = false ∧ t = s.afterOutput a) := Iff.rfl

/-- Whatever an instruction did, it left `LAST_OUTPUT` alone, unless it is an Output that completed. -/
theorem Effect.lastOutput_eq_or_afterOutput {s t : State} {i : Instr} (h : Effect s t i) :
    t.lastOutput = s.lastOutput ∨ ∃ a, i = .output a ∧ t = s.afterOutput a := by
  cases i with
  | output a =>
    obtain ⟨-, rfl⟩ | ⟨-, ht⟩ := effect_output_iff.mp h
    · exact .inl rfl
    · exact .inr ⟨a, rfl, ht⟩
  | input d => obtain ⟨v, -, rfl⟩ | ⟨-, rfl⟩ | ⟨-, rfl⟩ := h <;> exact .inl rfl
  | jumpIfTrue a b => exact .inl (by rw [show t = ite _ _ _ from h]; split <;> rfl)
  | jumpIfFalse a b => exact .inl (by rw [show t = ite _ _ _ from h]; split <;> rfl)
  | add a b d => cases h; exact .inl rfl
  | multiply a b d => cases h; exact .inl rfl
  | lessThan a b d => cases h; exact .inl rfl
  | equals a b d => cases h; exact .inl rfl
  | adjustRelativeBase a => cases h; exact .inl rfl
  | halt => cases h; exact .inl rfl

/-- A step that changes `LAST_OUTPUT` is an Output that completes. -/
theorem stepWith_eq_afterOutput_of_lastOutput_ne {map : OpcodeMap} {s t : State} (h : stepWith map s = .next t)
    (hne : t.lastOutput ≠ s.lastOutput) :
    s.status = .running ∧ ∃ a, s.fetchInstrWith map = .ok (.output a) ∧ t = s.afterOutput a := by
  obtain ⟨-, rfl⟩ | ⟨e, -, -, rfl⟩ | ⟨i, hr, hf, hw, hx⟩ := stepWith_cases h
  · exact absurd rfl hne
  · exact absurd rfl hne
  · obtain ⟨x, -, rfl⟩ | ⟨-, he⟩ := exec_cases hw hx
    · exact absurd rfl hne
    · obtain hl | ⟨a, rfl, ht⟩ := he.lastOutput_eq_or_afterOutput
      · exact absurd hl hne
      · exact ⟨hr, a, hf, ht⟩

/-- An Output that leaves the machine Running has completed. -/
theorem exec_output_eq_afterOutput_of_running {s t : State} {a : Mode} (h : exec (.output a) s = .next t)
    (ht : t.status = .running) : t = s.afterOutput a := by
  obtain ⟨x, -, rfl⟩ | ⟨-, he⟩ := exec_cases (i := .output a) rfl h
  · cases ht
  · obtain ⟨-, rfl⟩ | ⟨-, he⟩ := effect_output_iff.mp he
    · cases ht
    · exact he

/-! #### No read: a step commutes with a change of LAST_OUTPUT -/

/-- The same state with another `LAST_OUTPUT`. -/
def State.withLastOutput (s : State) (x : Option Word) : State :=
  { s with lastOutput := x }

@[simp] theorem operandIndex_withLastOutput (s : State) (x : Option Word) (k : Nat) (m : Mode) :
    (s.withLastOutput x).operandIndex k m = s.operandIndex k m := operandIndex_congr rfl rfl rfl k m

@[simp] theorem operandValue_withLastOutput (s : State) (x : Option Word) (k : Nat) (m : Mode) :
    (s.withLastOutput x).operandValue k m = s.operandValue k m := operandValue_congr rfl rfl rfl k m

@[simp] theorem firstBadIndex_withLastOutput (s : State) (x : Option Word) (l : List (Nat × Mode)) :
    (s.withLastOutput x).firstBadIndex l = s.firstBadIndex l :=
  firstBadIndex_congr (s := s) (t := s.withLastOutput x) rfl rfl rfl rfl l

theorem binaryOp_withLastOutput (s : State) (x : Option Word) (f : Word → Word → Word) (a b : Mode) {d : Mode}
    (hd : d ≠ .immediate) :
    (s.withLastOutput x).binaryOp f a b d = (s.binaryOp f a b d).map (·.withLastOutput x) := by
  simp only [State.binaryOp_eq _ f a b hd, firstBadIndex_withLastOutput, operandIndex_withLastOutput,
    operandValue_withLastOutput]
  cases s.firstBadIndex [(1, a), (2, b), (3, d)] <;> rfl

theorem branchOp_withLastOutput (s : State) (x : Option Word) (p : Word → Bool) (a b : Mode) :
    (s.withLastOutput x).branchOp p a b = (s.branchOp p a b).map (·.withLastOutput x) := by
  simp only [State.branchOp_eq, firstBadIndex_withLastOutput, operandValue_withLastOutput]
  cases s.firstBadIndex [(1, a), (2, b)] with
  | some i => rfl
  | none => cases p (s.operandValue 1 a) <;> rfl

theorem inputOp_withLastOutput (s : State) (x : Option Word) {d : Mode} (hd : d ≠ .immediate) :
    (s.withLastOutput x).inputOp d = (s.inputOp d).map (·.withLastOutput x) := by
  have hp : (s.withLastOutput x).inPoll = s.inPoll := rfl
  simp only [State.inputOp_eq _ hd, firstBadIndex_withLastOutput, operandIndex_withLastOutput, hp]
  cases s.firstBadIndex [(1, d)] with
  | some i => rfl
  | none => cases s.inPoll <;> rfl

theorem adjustOp_withLastOutput (s : State) (x : Option Word) (a : Mode) :
    (s.withLastOutput x).adjustOp a = (s.adjustOp a).map (·.withLastOutput x) := by
  simp only [State.adjustOp_eq, firstBadIndex_withLastOutput, operandValue_withLastOutput]
  cases s.firstBadIndex [(1, a)] <;> rfl

/-- Output overwrites what was recorded before, so the old record leaves no trace. -/
theorem outputOp_withLastOutput (s : State) (x : Option Word) (a : Mode) :
    (s.withLastOutput x).outputOp a = s.outputOp a := by
  simp only [State.outputOp_eq, firstBadIndex_withLastOutput, operandValue_withLastOutput]
  rfl

/-- An operation that carries `LAST_OUTPUT` along ends in the same next state but for it, by a fault or not. -/
theorem finish_withLastOutput {s t : State} {x : Option Word} {r r' : Except Raised State}
    (hr : r' = r.map (·.withLastOutput x)) (h : s.finish r = .next t) :
    (s.withLastOutput x).finish r' = .next (t.withLastOutput x) := by
  subst hr
  cases r <;> cases h <;> rfl

/-- From another `LAST_OUTPUT` an instruction gives the same next state but for `LAST_OUTPUT`. -/
theorem exec_withLastOutput {s t : State} {i : Instr} (x : Option Word) (hw : i.WellFormed)
    (h : exec i s = .next t) : ∃ y, exec i (s.withLastOutput x) = .next (t.withLastOutput y) := by
  have dst : ∀ d : Mode, i.destination = some d → d ≠ .immediate := fun d e he =>
    Instr.wf_destination hw (by rw [e, he])
  cases i with
  | add a b d => exact ⟨x, finish_withLastOutput (binaryOp_withLastOutput s x _ a b (dst d rfl)) h⟩
  | multiply a b d => exact ⟨x, finish_withLastOutput (binaryOp_withLastOutput s x _ a b (dst d rfl)) h⟩
  | lessThan a b d => exact ⟨x, finish_withLastOutput (binaryOp_withLastOutput s x _ a b (dst d rfl)) h⟩
  | equals a b d => exact ⟨x, finish_withLastOutput (binaryOp_withLastOutput s x _ a b (dst d rfl)) h⟩
  | jumpIfTrue a b => exact ⟨x, finish_withLastOutput (branchOp_withLastOutput s x _ a b) h⟩
  | jumpIfFalse a b => exact ⟨x, finish_withLastOutput (branchOp_withLastOutput s x _ a b) h⟩
  | input d => exact ⟨x, finish_withLastOutput (inputOp_withLastOutput s x (dst d rfl)) h⟩
  | adjustRelativeBase a => exact ⟨x, finish_withLastOutput (adjustOp_withLastOutput s x a) h⟩
  | output a =>
    change s.finish (s.outputOp a) = .next t at h
    change ∃ y, (s.withLastOutput x).finish ((s.withLastOutput x).outputOp a) = _
    rw [outputOp_withLastOutput]
    cases hr : s.outputOp a with
    | ok u => rw [hr] at h; cases h; exact ⟨t.lastOutput, rfl⟩
    | error e => rw [hr] at h; cases h; exact ⟨x, rfl⟩
  | halt => cases h; exact ⟨x, rfl⟩

/-- From another `LAST_OUTPUT` a step gives the same next state but for `LAST_OUTPUT`. -/
theorem stepWith_withLastOutput {map : OpcodeMap} {s t : State} (x : Option Word) (h : stepWith map s = .next t) :
    ∃ y, stepWith map (s.withLastOutput x) = .next (t.withLastOutput y) := by
  have hfetch : (s.withLastOutput x).fetchInstrWith map = s.fetchInstrWith map := fetchInstrWith_congr rfl rfl rfl
  obtain ⟨hs, rfl⟩ | ⟨e, hr, he, rfl⟩ | ⟨i, hr, hi, hw, hx⟩ := stepWith_cases h
  · exact ⟨x, stepWith_of_not_running hs⟩
  · exact ⟨x, stepWith_of_fetch_error hr (hfetch.trans he)⟩
  · rw [stepWith_of_fetch_ok (s := s.withLastOutput x) hr (hfetch.trans hi)]
    exact exec_withLastOutput x hw hx

/-- Settles O48: the only write is `State.afterOutput`, host acts keep CORE, and a step commutes with a change of
`LAST_OUTPUT`. -/
theorem lastOutputIsWrittenOnlyByOutput : Obligations.LastOutputIsWrittenOnlyByOutput := by
  unfold Obligations.LastOutputIsWrittenOnlyByOutput
  refine ⟨State.load_lastOutput, ?changed, ?completed, ?host, ?unread⟩
  case changed =>
    intro s t h hne
    obtain ⟨hr, a, hf, rfl⟩ := stepWith_eq_afterOutput_of_lastOutput_ne h hne
    exact ⟨hr, hr, a, hf, State.afterOutput_lastOutput s a, State.afterOutput_outQ s a⟩
  case completed =>
    intro s t a hr hf h ht
    have hx : exec (.output a) s = .next t := (stepWith_of_fetch_ok hr hf).symm.trans h
    rw [exec_output_eq_afterOutput_of_running hx ht, State.afterOutput_lastOutput]
  case host =>
    intro s slack a ha
    exact congrArg CoreView.lastOutput (hostAct_coreView ha)
  case unread =>
    intro s t x h
    obtain ⟨y, hy⟩ := stepWith_withLastOutput x h
    exact ⟨_, hy, rfl⟩

end Sys2Proof.Machine

/-! ### The two memory primitives: result, frame and fault (20_memory.md R32, R33) -/

namespace Sys2Proof.Machine
open Sys2Proof.Claims

/-- The two ways to lie outside the array: before its first cell or past its last (20_memory.md R34). -/
theorem State.not_inBounds_iff {s : State} {a : Int} : ¬ s.InBounds a ↔ a < 0 ∨ a ≥ s.memLen := by
  unfold State.InBounds
  omega

/-! #### MemRead -/

theorem State.memRead_of_inBounds {s : State} {a : Int} (h : s.InBounds a) : s.memRead a = .ok (s.cell a.toNat) :=
  (s.memRead_eq a).trans (if_pos h)

theorem State.memRead_of_not_inBounds {s : State} {a : Int} (h : ¬ s.InBounds a) :
    s.memRead a = .error (.outOfBoundsAccess a) :=
  (s.memRead_eq a).trans (if_neg h)

/-- Settles O8: the two ranges of the statement are `InBounds` and its negation. -/
theorem memReadReturnsCellOrFaults : Obligations.MemReadReturnsCellOrFaults := by
  unfold Obligations.MemReadReturnsCellOrFaults
  intro s a
  exact ⟨State.memRead_of_inBounds, fun h => State.memRead_of_not_inBounds (State.not_inBounds_iff.mpr h)⟩

/-! #### MemWrite -/

theorem State.memWrite_of_inBounds {s : State} {a : Int} (h : s.InBounds a) (v : Word) :
    s.memWrite a v = .ok (s.setCell a.toNat v) :=
  (s.memWrite_eq a v).trans (if_pos h)

theorem State.memWrite_of_not_inBounds {s : State} {a : Int} (h : ¬ s.InBounds a) (v : Word) :
    s.memWrite a v = .error (.outOfBoundsAccess a) :=
  (s.memWrite_eq a v).trans (if_neg h)

/-- The canonical form is needed: with index 0 listed twice, a write of 0 there would uncover the second value. -/
theorem State.onlyCell_setCell {s : State} (h : s.mem.wf = true) (i : Nat) (v : Word) : OnlyCell s (s.setCell i v) i v :=
  ⟨(s.cell_setCell h i i v).trans (if_pos rfl), fun j hj => (s.cell_setCell h i j v).trans (if_neg hj)⟩

theorem State.sameStatus_setCell (s : State) (i : Nat) (v : Word) : SameStatus s (s.setCell i v) :=
  ⟨s.setCell_status i v, s.setCell_cause i v, s.setCell_faultInfo i v, s.setCell_memLen i v⟩

theorem State.sameChannels_setCell (s : State) (i : Nat) (v : Word) : SameChannels s (s.setCell i v) :=
  ⟨s.setCell_inQ i v, s.setCell_inClosed i v, s.setCell_outQ i v, s.setCell_outClosed i v⟩

/-- Settles O9: in range the write is `State.setCell`, whose frame is the whole state but one cell. -/
theorem memWriteChangesOneCell : Obligations.MemWriteChangesOneCell := by
  unfold Obligations.MemWriteChangesOneCell
  intro s a v hinv
  constructor
  · intro hin
    exact ⟨s.setCell a.toNat v, State.memWrite_of_inBounds hin v, State.onlyCell_setCell hinv.memWf a.toNat v,
      s.setCell_ip _ v, s.setCell_rb _ v, s.setCell_lastOutput _ v, s.sameStatus_setCell _ v, s.sameChannels_setCell _ v⟩
  · intro hout
    exact State.memWrite_of_not_inBounds (State.not_inBounds_iff.mpr hout) v

end Sys2Proof.Machine

/-! ### Operand modes, from what the parameter fetch answers (40_execution_cycle.md R75 to R79) -/

namespace Sys2Proof.Machine

/-! #### A parameter that cannot be fetched fails first, in every mode -/

theorem State.readOperand_of_param_error {s : State} {k : Nat} {e : Raised} (h : s.param k = .error e) (m : Mode) :
    s.readOperand k m = .error e := by
  rw [State.readOperand, h]
  rfl

theorem State.writeTarget_of_param_error {s : State} {k : Nat} {e : Raised} (h : s.param k = .error e) (m : Mode) :
    s.writeTarget k m = .error e := by
  rw [State.writeTarget, h]
  rfl

/-! #### The check of a target index -/

theorem State.checkTarget_of_inBounds {s : State} {a : Int} (h : s.InBounds a) : s.checkTarget a = .ok a :=
  (s.checkTarget_eq a).trans (if_pos h)

theorem State.checkTarget_of_not_inBounds {s : State} {a : Int} (h : ¬ s.InBounds a) :
    s.checkTarget a = .error (.outOfBoundsAccess a) :=
  (s.checkTarget_eq a).trans (if_neg h)

/-! #### Position: the parameter is the index -/

theorem State.readOperand_position_of_param_ok {s : State} {k : Nat} {p : Word} (h : s.param k = .ok p) :
    s.readOperand k .position = s.memRead p.toInt := by
  rw [State.readOperand, h]
  rfl

theorem State.writeTarget_position_of_param_ok {s : State} {k : Nat} {p : Word} (h : s.param k = .ok p) :
    s.writeTarget k .position = s.checkTarget p.toInt := by
  rw [State.writeTarget, h]
  rfl

theorem State.readOperand_position_withRb (s : State) (r : Word) (k : Nat) :
    State.readOperand { s with rb := r } k .position = s.readOperand k .position := rfl

theorem State.writeTarget_position_withRb (s : State) (r : Word) (k : Nat) :
    State.writeTarget { s with rb := r } k .position = s.writeTarget k .position := rfl

/-- Settles O25: a Position read is `MemRead` at the parameter and a Position target is the check of it; both ask only
whether the parameter is in bounds. -/
theorem positionOperandIsTheCellNamed : Obligations.PositionOperandIsTheCellNamed := by
  unfold Obligations.PositionOperandIsTheCellNamed
  refine ⟨?fetched, ?notFetched⟩
  case fetched =>
    intro s k p r hp
    refine ⟨fun hin => ?inRange, fun hout => ?outOfRange, s.readOperand_position_withRb r k,
      s.writeTarget_position_withRb r k⟩
    case inRange =>
      rw [State.readOperand_position_of_param_ok hp, State.writeTarget_position_of_param_ok hp]
      exact ⟨State.memRead_of_inBounds hin, State.checkTarget_of_inBounds hin⟩
    case outOfRange =>
      have hnot : ¬ s.InBounds p.toInt := State.not_inBounds_iff.mpr hout
      rw [State.readOperand_position_of_param_ok hp, State.writeTarget_position_of_param_ok hp]
      exact ⟨State.memRead_of_not_inBounds hnot, State.checkTarget_of_not_inBounds hnot⟩
  case notFetched =>
    intro s k e he
    exact ⟨State.readOperand_of_param_error he .position, State.writeTarget_of_param_error he .position⟩

end Sys2Proof.Machine

/-! ### The input channel as CORE and its host act on it (42_io.md R100 to R102) -/

namespace Sys2Proof.Machine

/-! #### InPoll and InTake -/

/-- InPoll and InTake speak of the same head. -/
theorem inQ_eq_cons_inTake_of_inPoll {s : State} {v : Word} (h : s.inPoll = .value v) : s.inQ = v :: s.inTake.inQ := by
  obtain ⟨rest, hq⟩ := inPoll_eq_value_iff.mp h
  rw [State.inTake_inQ, hq, List.tail_cons]

/-- Settles O55: the three answers are read off the queue and its closed flag, and InTake drops the head shown. -/
theorem inPollShowsHeadEmptyOrClosed : Obligations.InPollShowsHeadEmptyOrClosed := by
  unfold Obligations.InPollShowsHeadEmptyOrClosed
  intro s
  exact ⟨fun _ => inPoll_eq_value_iff, inPoll_eq_empty_iff, inPoll_eq_closed_iff, fun _ => inQ_eq_cons_inTake_of_inPoll⟩

/-! #### Who closes it: never CORE, and the host for good -/

/-- No instruction closes or opens the input channel. -/
theorem Effect.inClosed_eq {s t : State} {i : Instr} (h : Effect s t i) : t.inClosed = s.inClosed := by
  cases i with
  | input d => obtain ⟨v, -, rfl⟩ | ⟨-, rfl⟩ | ⟨-, rfl⟩ := h <;> rfl
  | output a => obtain ⟨-, rfl⟩ | ⟨-, rfl⟩ := effect_output_iff.mp h <;> rfl
  | jumpIfTrue a b => rw [show t = ite _ _ _ from h]; split <;> rfl
  | jumpIfFalse a b => rw [show t = ite _ _ _ from h]; split <;> rfl
  | add a b d => cases h; rfl
  | multiply a b d => cases h; rfl
  | lessThan a b d => cases h; rfl
  | equals a b d => cases h; rfl
  | adjustRelativeBase a => cases h; rfl
  | halt => cases h; rfl

/-- Nor does a step, whether it completes, holds, halts or faults. -/
theorem stepWith_inClosed {map : OpcodeMap} {s t : State} (h : stepWith map s = .next t) : t.inClosed = s.inClosed := by
  obtain ⟨-, rfl⟩ | ⟨e, -, -, rfl⟩ | ⟨i, -, -, hw, hx⟩ := stepWith_cases h
  · rfl
  · exact s.takeFault_inClosed e
  · obtain ⟨x, -, rfl⟩ | ⟨-, he⟩ := exec_cases hw hx
    · exact s.takeFault_inClosed _
    · exact he.inClosed_eq

/-- An append to a closed channel is no change at all. -/
theorem hostAppend_of_inClosed {s : State} (h : s.inClosed = true) (v : Word) : s.hostAppend v = s :=
  if_pos h

/-- No host act other than a reset opens it again. -/
theorem hostAct_inClosed_of_program_eq_none {s : State} {slack : Nat} {a : HostAction} (hp : a.program = none)
    (h : s.inClosed = true) : (s.hostAct slack a).inClosed = true := by
  obtain ⟨v, -, e⟩ | e | ⟨q, e⟩ | e := hostAct_cases (s := s) (slack := slack) hp <;> rw [e]
  · rw [hostAppend_of_inClosed h v, h]
  · rfl
  · exact h
  · exact h

/-- A reset leaves the channels in place (70_reset_and_hazards.md R193), so only binding others can open the input. -/
theorem hostAct_inClosed_of_binds_eq_none {s : State} {slack : Nat} {a : HostAction} (hb : a.binds = none)
    (h : s.inClosed = true) : (s.hostAct slack a).inClosed = true := by
  cases a with
  | reset p => exact (s.load_inClosed slack p).trans h
  | startRun p c => cases hb
  | append v => exact hostAct_inClosed_of_program_eq_none rfl h
  | closeInput => exact hostAct_inClosed_of_program_eq_none rfl h
  | take => exact hostAct_inClosed_of_program_eq_none rfl h
  | dropListener => exact hostAct_inClosed_of_program_eq_none rfl h

/-- Settles O56: steps leave the closed flag as it is, and the host can only set it. -/
theorem closedInputStaysClosed : Obligations.ClosedInputStaysClosed := by
  unfold Obligations.ClosedInputStaysClosed
  intro s hc
  exact ⟨fun t ht => (stepWith_inClosed ht).trans hc,
    fun slack a hb => hostAct_inClosed_of_binds_eq_none hb hc,
    fun v => congrArg State.inQ (hostAppend_of_inClosed hc v)⟩

end Sys2Proof.Machine

/-! ### The start state, and the first step from it (70_reset_and_hazards.md R190 to R193) -/

namespace Sys2Proof.Machine

open Sys2Proof.Claims

/-! #### Memory after a reset -/

/-- Past the program nothing is listed, so the slack cells read as 0. -/
theorem State.cell_load (s : State) (slack : Nat) (p : List Word) (i : Nat) :
    (s.load slack p).cell i = p.getD i 0#64 := by
  calc (s.load slack p).cell i
    _ = (Memory.ofCells 0 p).read (0 + i) := by rw [Nat.zero_add]; rfl
    _ = p.getD i 0#64 := Memory.read_ofCells p 0 i

theorem State.cell_load_of_lt (s : State) (slack : Nat) {p : List Word} {i : Nat} (h : i < p.length) :
    (s.load slack p).cell i = p[i] :=
  (s.cell_load slack p i).trans (List.getD_eq_getElem p 0#64 h)

theorem State.cell_load_of_length_le (s : State) (slack : Nat) {p : List Word} {i : Nat} (h : p.length ≤ i) :
    (s.load slack p).cell i = 0 :=
  (s.cell_load slack p i).trans (List.getD_eq_default p 0#64 h)

theorem State.cell_load_cons_zero (s : State) (slack : Nat) (v : Word) (p : List Word) :
    (s.load slack (v :: p)).cell 0 = v :=
  s.cell_load slack (v :: p) 0

/-- Cell 0 exists as soon as the program has a word, whatever the slack is. -/
theorem State.inBounds_zero_load_cons (s : State) (slack : Nat) (v : Word) (p : List Word) :
    (s.load slack (v :: p)).InBounds 0 := by
  simp only [State.InBounds, State.load_memLen, List.length_cons]
  omega

/-! #### The state before leaves no trace in CORE, and the channels stay -/

theorem State.coreView_load (s s' : State) (slack : Nat) (p : List Word) :
    (s.load slack p).coreView = (s'.load slack p).coreView := rfl

theorem State.sameChannels_load (s : State) (slack : Nat) (p : List Word) : SameChannels s (s.load slack p) :=
  ⟨s.load_inQ slack p, s.load_inClosed slack p, s.load_outQ slack p, s.load_outClosed slack p⟩

/-- Settles O12: each register by its law of `State.load`, the cells by reading the program back. -/
theorem resetGivesStartState : Obligations.ResetGivesStartState := by
  unfold Obligations.ResetGivesStartState
  intro s s' slack p _ _
  exact ⟨s.load_memLen slack p, fun _ h => s.cell_load_of_lt slack h, fun _ h => s.cell_load_of_length_le slack h,
    s.load_ip slack p, s.load_rb slack p, s.load_lastOutput slack p, s.load_status slack p, s.load_cause slack p,
    s.load_faultInfo slack p, s.coreView_load s' slack p⟩

/-- Settles O13: no part of either channel is among what `State.load` sets. -/
theorem resetKeepsChannels : Obligations.ResetKeepsChannels := by
  unfold Obligations.ResetKeepsChannels
  exact State.sameChannels_load

/-! #### The first step -/

theorem State.fetch_load_cons (s : State) (slack : Nat) (v : Word) (p : List Word) :
    (s.load slack (v :: p)).fetch = .ok v := by
  calc (s.load slack (v :: p)).fetch
    _ = (s.load slack (v :: p)).memRead 0 := rfl
    _ = .ok ((s.load slack (v :: p)).cell 0) := State.memRead_of_inBounds (s.inBounds_zero_load_cons slack v p)
    _ = .ok v := by rw [s.cell_load_cons_zero slack v p]

/-- A first word that decodes is the first instruction, under any opcode map. -/
theorem State.fetchInstrWith_load_cons {map : OpcodeMap} {v : Word} {i : Instr} (h : decodeWith map v = .ok i)
    (s : State) (slack : Nat) (p : List Word) : (s.load slack (v :: p)).fetchInstrWith map = .ok i :=
  fetchInstrWith_ok_iff.mpr
    ⟨s.inBounds_zero_load_cons slack v p, (congrArg (decodeWith map) (s.cell_load_cons_zero slack v p)).trans h⟩

/-- Settles O14: the machine is Running after a reset, so its step runs the instruction fetched at cell 0. -/
theorem firstFetchReadsCellZero : Obligations.FirstFetchReadsCellZero := by
  unfold Obligations.FirstFetchReadsCellZero
  intro s slack v p _
  exact ⟨s.load_ip slack (v :: p), s.fetch_load_cons slack v p, fun i hi =>
    stepWith_of_fetch_ok (s.load_status slack (v :: p)) (State.fetchInstrWith_load_cons hi s slack p)⟩

end Sys2Proof.Machine

/-! ### Operands and destinations of an instruction term -/

namespace Sys2Proof

/-- Every instruction but Halt has a first parameter. -/
theorem Instr.operands_eq_cons {i : Instr} (h : i ≠ .halt) : ∃ m rest, i.operands = (1, m) :: rest := by
  cases i with
  | halt => exact absurd rfl h
  | _ => exact ⟨_, _, rfl⟩

theorem Instr.wellFormed_of_destination {i : Instr} {d : Mode} (h : i.destination = some d)
    (hd : d ≠ .immediate) : i.WellFormed := by
  simp [Instr.WellFormed, Instr.wf, h, hd]

theorem Instr.WellFormed.ne_immediate {i : Instr} (hw : i.WellFormed) {d : Mode} (h : i.destination = some d) :
    d ≠ .immediate :=
  fun hd => Instr.wf_destination hw (h.trans (congrArg some hd))

end Sys2Proof

/-! ### What a step can do, by the kind of change it makes (40_execution_cycle.md R70, R81) -/

namespace Sys2Proof.Machine

open Sys2Proof.Claims

/-! #### Every step answers a next state -/

/-- No instruction stops on an outcome of the interface (log 15). -/
theorem exec_next (i : Instr) (s : State) : ∃ t, exec i s = .next t := by
  cases i with
  | add a b d => exact s.finish_next (s.binaryOp addValue a b d)
  | multiply a b d => exact s.finish_next (s.binaryOp multiplyValue a b d)
  | lessThan a b d => exact s.finish_next (s.binaryOp lessThanValue a b d)
  | equals a b d => exact s.finish_next (s.binaryOp equalsValue a b d)
  | jumpIfTrue a b => exact s.finish_next (s.branchOp isTrue a b)
  | jumpIfFalse a b => exact s.finish_next (s.branchOp isFalse a b)
  | input d => exact s.finish_next (s.inputOp d)
  | output a => exact s.finish_next (s.outputOp a)
  | adjustRelativeBase a => exact s.finish_next (s.adjustOp a)
  | halt => exact ⟨s.haltWith .halt, rfl⟩

theorem stepWith_next (map : OpcodeMap) (s : State) : ∃ t, stepWith map s = .next t := by
  by_cases hr : s.status = .running
  · cases hf : s.fetchInstrWith map with
    | error e => exact ⟨s.takeFault e, stepWith_of_fetch_error hr hf⟩
    | ok i => rw [stepWith_of_fetch_ok hr hf]; exact exec_next i s
  · exact ⟨s, stepWith_of_not_running hr⟩

/-- Settles O21: an instruction and a fault entry each answer a next state, and so does a terminal state. -/
theorem everyStepAnswersNext : Obligations.EveryStepAnswersNext := by
  unfold Obligations.EveryStepAnswersNext
  exact ⟨stepWith_next opcodeMap, stepWith_next⟩

/-! #### An instruction whose operands resolve, and one whose operands do not -/

theorem exec_of_firstBadIndex_eq_none {s : State} {i : Instr} (hw : i.WellFormed)
    (hb : s.firstBadIndex i.operands = none) : ∃ t, exec i s = .next t ∧ Effect s t i := by
  obtain ⟨t, ht⟩ := exec_next i s
  obtain ⟨x, hx, -⟩ | ⟨-, he⟩ := exec_cases hw ht
  · exact nomatch hb.symm.trans hx
  · exact ⟨t, ht, he⟩

theorem exec_of_firstBadIndex_eq_some {s : State} {i : Instr} {a : Int} (hw : i.WellFormed)
    (hb : s.firstBadIndex i.operands = some a) : exec i s = .next (s.takeFault (.outOfBoundsAccess a)) := by
  obtain ⟨t, ht⟩ := exec_next i s
  obtain ⟨x, hx, rfl⟩ | ⟨hn, -⟩ := exec_cases hw ht
  · cases hb.symm.trans hx; exact ht
  · exact nomatch hb.symm.trans hn

/-! #### The kinds of change -/

/-- The next states of the instruction `i` at `s`, by what changes: the four RRW instructions are one kind, and so are
the two jumps, taken or not. Each kind carries what the resolve stage found. -/
inductive Change (s : State) : Instr → State → Prop
  | operandFault {i a} (hb : s.firstBadIndex i.operands = some a) : Change s i (s.takeFault (.outOfBoundsAccess a))
  | store {i d} (v : Word) (hd : i.destination = some d) (hn : i.operands.length = 3) (hw : s.Writable 3 d) :
    Change s i ((s.setCell (s.operandIndex 3 d).toNat v).advance 4)
  | jump {i} (v : Word) (hd : i.destination = none) : Change s i (s.jumpTo v)
  | receive {d v} (hw : s.Writable 1 d) (hp : s.inPoll = .value v) :
    Change s (.input d) ((s.inTake.setCell (s.operandIndex 1 d).toNat v).advance 2)
  | inputEnd {d} (hw : s.Writable 1 d) (hp : s.inPoll = .closed) : Change s (.input d) (s.haltWith .inputClosed)
  | hold {d} (hw : s.Writable 1 d) (hp : s.inPoll = .empty) : Change s (.input d) s
  | send {a} (hr : s.Readable 1 a) (hc : s.outClosed = false) : Change s (.output a) (s.afterOutput a)
  | noListener {a} (hr : s.Readable 1 a) (hc : s.outClosed = true) :
    Change s (.output a) (s.takeFault (.outputChannelClosed (s.operandValue 1 a)))
  | rebase {a} : Change s (.adjustRelativeBase a) ((s.setRb (wrap64 (s.rb.toInt + (s.operandValue 1 a).toInt))).advance 2)
  | halt : Change s .halt (s.haltWith .halt)

theorem State.readable_of_firstBadIndex {s : State} {k : Nat} {m : Mode} (h : s.firstBadIndex [(k, m)] = none) :
    s.Readable k m := by
  refine State.badIndex_eq_none_iff_readable.mp ?_
  cases hb : s.badIndex k m with
  | none => rfl
  | some a => simp [State.firstBadIndex, hb] at h

/-- Both ways of a jump are one kind of change. -/
theorem Change.ofBranch {s : State} {i : Instr} (hd : i.destination = none) (taken : Bool) (v : Word) :
    Change s i (if taken then s.jumpTo v else s.advance 3) := by
  cases taken
  · exact .jump _ hd
  · exact .jump v hd

theorem Effect.change {s t : State} {i : Instr} (hw : i.WellFormed) (hb : s.firstBadIndex i.operands = none)
    (h : Effect s t i) : Change s i t := by
  have last : ∀ {k d l}, i.destination = some d → i.operands = l ++ [(k, d)] → s.Writable k d := fun hd hl =>
    State.writable_of_firstBadIndex (hw.ne_immediate hd) (hl ▸ hb)
  cases i with
  | add a b d => cases h; exact .store _ rfl rfl (last (l := [(1, a), (2, b)]) rfl rfl)
  | multiply a b d => cases h; exact .store _ rfl rfl (last (l := [(1, a), (2, b)]) rfl rfl)
  | lessThan a b d => cases h; exact .store _ rfl rfl (last (l := [(1, a), (2, b)]) rfl rfl)
  | equals a b d => cases h; exact .store _ rfl rfl (last (l := [(1, a), (2, b)]) rfl rfl)
  | jumpIfTrue a b => cases h; exact .ofBranch rfl _ _
  | jumpIfFalse a b => cases h; exact .ofBranch rfl _ _
  | input d =>
    have hd : s.Writable 1 d := last (l := []) rfl rfl
    obtain ⟨v, hp, rfl⟩ | ⟨hp, rfl⟩ | ⟨hp, rfl⟩ := h
    · exact .receive hd hp
    · exact .inputEnd hd hp
    · exact .hold hd hp
  | output a =>
    have hr : s.Readable 1 a := State.readable_of_firstBadIndex hb
    obtain ⟨hc, rfl⟩ | ⟨hc, rfl⟩ := effect_output_iff.mp h
    · exact .noListener hr hc
    · exact .send hr hc
  | adjustRelativeBase a => cases h; exact .rebase
  | halt => cases h; exact .halt

theorem exec_change {s t : State} {i : Instr} (hw : i.WellFormed) (h : exec i s = .next t) : Change s i t := by
  obtain ⟨a, hb, rfl⟩ | ⟨hb, he⟩ := exec_cases hw h
  · exact .operandFault hb
  · exact he.change hw hb

/-- The next states of a step: none of its own in a terminal state, a fetch or decode fault, or a change by the
instruction at `IP`. -/
inductive StepChange (map : OpcodeMap) (s : State) : State → Prop
  | terminal (hs : s.status ≠ .running) : StepChange map s s
  | fetchFault {e} (hr : s.status = .running) (hf : s.fetchInstrWith map = .error e) : StepChange map s (s.takeFault e)
  | instr {i t} (hr : s.status = .running) (hf : s.fetchInstrWith map = .ok i) (hc : Change s i t) : StepChange map s t

theorem stepWith_change {map : OpcodeMap} {s t : State} (h : stepWith map s = .next t) : StepChange map s t := by
  obtain ⟨hs, rfl⟩ | ⟨e, hr, hf, rfl⟩ | ⟨i, hr, hf, hw, hx⟩ := stepWith_cases h
  · exact .terminal hs
  · exact .fetchFault hr hf
  · exact .instr hr hf (exec_change hw hx)

theorem step_change {s t : State} (h : step s = .next t) : StepChange opcodeMap s t :=
  stepWith_change h

/-- Why fetch or decode raises (40_execution_cycle.md R71, R72). -/
theorem fetchInstrWith_error_cases {map : OpcodeMap} {s : State} {e : Raised} (h : s.fetchInstrWith map = .error e) :
    (¬ s.InBounds s.ip.toInt ∧ e = .outOfBoundsAccess s.ip.toInt) ∨
      (s.InBounds s.ip.toInt ∧ (∃ r, decodeWith map (s.cell s.ip.toInt.toNat) = .error r) ∧
        e = .malformedProgram (s.cell s.ip.toInt.toNat)) := by
  rw [fetchInstrWith_eq] at h
  by_cases hb : s.InBounds s.ip.toInt
  · rw [if_pos hb] at h
    cases hd : decodeWith map (s.cell s.ip.toInt.toNat) with
    | ok i => rw [hd] at h; cases h
    | error r => rw [hd] at h; cases h; exact .inr ⟨hb, ⟨r, rfl⟩, rfl⟩
  · rw [if_neg hb] at h; cases h
    exact .inl ⟨hb, rfl⟩

/-! #### The invariant of the state (10_state.md R11, R16 to R18) -/

/-- A halt of a Running machine keeps the invariant: its `FAULT_INFO` is still 0. -/
theorem State.Inv.haltWith {s : State} (h : s.Inv) (hr : s.status = .running) {c : Cause}
    (hc : c = .halt ∨ c = .inputClosed) : (s.haltWith c).Inv :=
  ⟨h.memWf, h.listed, h.memLenLe, nofun, fun _ => ⟨hc, (h.runningClean hr).2⟩, nofun⟩

/-- The instruction at a Running state keeps the invariant. -/
theorem Change.inv {s t : State} {i : Instr} (hc : Change s i t) (h : s.Inv) (hr : s.status = .running) : t.Inv := by
  cases hc with
  | operandFault => exact h.takeFault _
  | store v _ _ hw => exact (h.setCell v hw.inBounds.toNat_lt).congr rfl rfl rfl rfl rfl
  | jump => exact h.congr rfl rfl rfl rfl rfl
  | receive hw => exact (h.setCell _ hw.inBounds.toNat_lt).congr rfl rfl rfl rfl rfl
  | inputEnd => exact h.haltWith hr (.inr rfl)
  | hold => exact h
  | send => exact h.congr rfl rfl rfl rfl rfl
  | noListener => exact h.takeFault _
  | rebase => exact h.congr rfl rfl rfl rfl rfl
  | halt => exact h.haltWith hr (.inl rfl)

theorem StepChange.inv {map : OpcodeMap} {s t : State} (hc : StepChange map s t) (h : s.Inv) : t.Inv := by
  cases hc with
  | terminal => exact h
  | fetchFault => exact h.takeFault _
  | instr hr _ hc => exact hc.inv h hr

/-- Settles O43: every kind of change keeps the invariant, whatever the opcode map. -/
theorem stepKeepsInvariant : Obligations.StepKeepsInvariant := by
  unfold Obligations.StepKeepsInvariant
  exact ⟨fun _ _ h hs => (step_change hs).inv h, fun _ _ _ h hs => (stepWith_change hs).inv h⟩

/-! #### What a terminal state shows of its end (60_exceptions.md R150 to R154) -/

@[simp] theorem State.haltWith_fetchInstr (s : State) (c : Cause) : (s.haltWith c).fetchInstr = s.fetchInstr :=
  fetchInstr_congr rfl rfl rfl

@[simp] theorem State.takeFault_fetchInstr (s : State) (e : Raised) : (s.takeFault e).fetchInstr = s.fetchInstr :=
  fetchInstr_congr rfl rfl rfl

@[simp] theorem State.takeFault_firstBadIndex (s : State) (e : Raised) (l : List (Nat × Mode)) :
    (s.takeFault e).firstBadIndex l = s.firstBadIndex l :=
  firstBadIndex_congr (s := s) (t := s.takeFault e) rfl rfl rfl rfl l

/-- Nothing is claimed of a run that has not ended. -/
theorem State.endExplained_of_cause_none {s : State} (h : s.cause = .none) : s.EndExplained := by
  simp [State.EndExplained, h]

/-- The operands' own account of a fault: `IP` and the cells stay, so the terminal state still shows it. -/
theorem State.endExplained_takeFault_outOfBounds {s : State} {a : Int} (ha : ¬ s.InBounds a)
    (h : a = s.ip.toInt ∨ ∃ i, s.fetchInstr = .ok i ∧ s.firstBadIndex i.operands = some a) :
    (s.takeFault (.outOfBoundsAccess a)).EndExplained := by
  refine ⟨a, ha, rfl, h.imp_right ?_⟩
  rintro ⟨i, hf, hb⟩
  exact ⟨i, (s.takeFault_fetchInstr _).trans hf, (s.takeFault_firstBadIndex _ _).trans hb⟩

theorem State.endExplained_takeFault_of_fetchInstr {s : State} {e : Raised} (h : s.fetchInstr = .error e) :
    (s.takeFault e).EndExplained := by
  obtain ⟨hb, rfl⟩ | ⟨hb, hd, rfl⟩ := fetchInstrWith_error_cases h
  · exact State.endExplained_takeFault_outOfBounds hb (.inl rfl)
  · exact ⟨hb, rfl, hd⟩

theorem Change.endExplained {s t : State} {i : Instr} (hc : Change s i t) (hcause : s.cause = .none)
    (hf : s.fetchInstr = .ok i) : t.EndExplained := by
  cases hc with
  | operandFault hb =>
    exact State.endExplained_takeFault_outOfBounds (State.firstBadIndex_outOfBounds hb) (.inr ⟨i, hf, hb⟩)
  | store => exact State.endExplained_of_cause_none hcause
  | jump => exact State.endExplained_of_cause_none hcause
  | receive => exact State.endExplained_of_cause_none hcause
  | inputEnd hw hp =>
    obtain ⟨hq, hcl⟩ := inPoll_eq_closed_iff.mp hp
    exact ⟨_, (s.haltWith_fetchInstr _).trans hf, hw, hq, hcl⟩
  | hold => exact State.endExplained_of_cause_none hcause
  | send => exact State.endExplained_of_cause_none hcause
  | noListener hr hcl => exact ⟨_, (s.takeFault_fetchInstr _).trans hf, hr, rfl, hcl⟩
  | rebase => exact State.endExplained_of_cause_none hcause
  | halt => exact (s.haltWith_fetchInstr _).trans hf

/-- Settles O44: a Running state has no cause yet, so each ending explains itself by the instruction it came from. -/
theorem stepKeepsEndExplained : Obligations.StepKeepsEndExplained := by
  unfold Obligations.StepKeepsEndExplained
  intro s t hinv he hs
  cases step_change hs with
  | terminal => exact he
  | fetchFault _ hf => exact State.endExplained_takeFault_of_fetchInstr hf
  | instr hr hf hc => exact hc.endExplained (hinv.runningClean hr).1 hf

end Sys2Proof.Machine

/-! ### The fault entry, fetch and decode (60_exceptions.md R156 to R158; 40_execution_cycle.md R70 to R72) -/

namespace Sys2Proof.Machine

open Sys2Proof.Claims

/-! #### The fault entry and its frame -/

theorem wrapped_toInt (w : Word) : wrapped w.toInt = w.toInt := by
  have h := wrap64_toInt w.toInt
  rw [wrap64_toInt_self] at h
  exact h.symm

/-- The whole of a fault entry, for information that is `info` wrapped. -/
theorem State.faultEntry_takeFault (s : State) {e : Raised} {info : Int} (h : e.info.toInt = wrapped info) :
    FaultEntry s (s.takeFault e) e.cause info :=
  ⟨rfl, rfl, h, fun _ => rfl, rfl, rfl, rfl, rfl, rfl, rfl, rfl, rfl⟩

theorem State.faultEntry_outOfBounds (s : State) (a : Int) :
    FaultEntry s (s.takeFault (.outOfBoundsAccess a)) .outOfBoundsAccess a :=
  s.faultEntry_takeFault (e := .outOfBoundsAccess a) (wrap64_toInt a)

theorem State.faultEntry_malformedProgram (s : State) (w : Word) :
    FaultEntry s (s.takeFault (.malformedProgram w)) .malformedProgram w.toInt :=
  s.faultEntry_takeFault (e := .malformedProgram w) (wrapped_toInt w).symm

theorem State.faultEntry_outputChannelClosed (s : State) (v : Word) :
    FaultEntry s (s.takeFault (.outputChannelClosed v)) .outputChannelClosed v.toInt :=
  s.faultEntry_takeFault (e := .outputChannelClosed v) (wrapped_toInt v).symm

/-- Settles O41: the first failing index is out of bounds, and the instruction is its fault entry. -/
theorem firstBadOperandFaults : Obligations.FirstBadOperandFaults := by
  unfold Obligations.FirstBadOperandFaults
  intro s i a hw hb
  exact ⟨State.not_inBounds_iff.mp (State.firstBadIndex_outOfBounds hb), _, exec_of_firstBadIndex_eq_some hw hb,
    s.faultEntry_outOfBounds a⟩

/-! #### Terminal states -/

theorem State.stepKind_of_not_running {s : State} (h : s.status ≠ .running) : s.stepKind = .noStep := by
  unfold State.stepKind
  cases hs : s.status with
  | running => exact absurd hs h
  | halted => rfl
  | faulted => rfl

/-- Settles O20: a status that is not Running stops the step before the fetch. -/
theorem terminalStatesDoNotStep : Obligations.TerminalStatesDoNotStep := by
  unfold Obligations.TerminalStatesDoNotStep
  intro s h
  have hs : s.status ≠ .running := by rcases h with h | h <;> simp [h]
  exact ⟨fun _ => stepWith_of_not_running hs, stepWith_of_not_running hs, State.stepKind_of_not_running hs⟩

/-! #### The word at `IP` -/

theorem stepWith_of_decode_ok {map : OpcodeMap} {s : State} {i : Instr} (hr : s.status = .running)
    (hb : s.InBounds s.ip.toInt) (hd : decodeWith map (s.cell s.ip.toInt.toNat) = .ok i) : stepWith map s = exec i s :=
  stepWith_of_fetch_ok hr (fetchInstrWith_ok_iff.mpr ⟨hb, hd⟩)

theorem fetchInstrWith_of_decode_error {map : OpcodeMap} {s : State} {r : DecodeError} (hb : s.InBounds s.ip.toInt)
    (hd : decodeWith map (s.cell s.ip.toInt.toNat) = .error r) :
    s.fetchInstrWith map = .error (.malformedProgram (s.cell s.ip.toInt.toNat)) := by
  rw [fetchInstrWith_eq, if_pos hb, hd]

theorem fetchInstrWith_of_not_inBounds {s : State} (hb : ¬ s.InBounds s.ip.toInt) (map : OpcodeMap) :
    s.fetchInstrWith map = .error (.outOfBoundsAccess s.ip.toInt) :=
  (fetchInstrWith_eq map s).trans (if_neg hb)

/-- Settles O18: in range, fetch and decode answer the instruction the cell at `IP` decodes to. -/
theorem stepRunsTheDecodedInstruction : Obligations.StepRunsTheDecodedInstruction := by
  unfold Obligations.StepRunsTheDecodedInstruction
  intro s i hr h0 h1
  have runs : ∀ map : OpcodeMap, decodeWith map (s.cell s.ip.toInt.toNat) = .ok i →
      i.WellFormed ∧ stepWith map s = exec i s := fun _ hd =>
    ⟨decodeWith_wellFormed hd, stepWith_of_decode_ok hr ⟨h0, h1⟩ hd⟩
  exact ⟨runs, runs opcodeMap⟩

/-- Settles O19: in range, a word that does not decode raises `MalformedProgram` before any operand is looked at. -/
theorem malformedWordTakesFault : Obligations.MalformedWordTakesFault := by
  unfold Obligations.MalformedWordTakesFault
  intro s e hr h0 h1
  have faults : ∀ map : OpcodeMap, decodeWith map (s.cell s.ip.toInt.toNat) = .error e →
      ∃ t, stepWith map s = .next t ∧ FaultEntry s t .malformedProgram (s.cell s.ip.toInt.toNat).toInt := fun _ hd =>
    ⟨_, stepWith_of_fetch_error hr (fetchInstrWith_of_decode_error ⟨h0, h1⟩ hd), s.faultEntry_malformedProgram _⟩
  exact ⟨faults, faults opcodeMap⟩

/-- Without a cell after the word, every instruction but Halt fails at its first parameter. -/
theorem State.firstBadIndex_of_first_param {s : State} {i : Instr} (hi : i ≠ .halt) (hb : ¬ s.InBounds (s.ip.toInt + 1)) :
    s.firstBadIndex i.operands = some (s.ip.toInt + 1) := by
  obtain ⟨m, rest, ho⟩ := Instr.operands_eq_cons hi
  have h1 : s.badIndex 1 m = some (s.ip.toInt + 1) := if_neg hb
  rw [ho, State.firstBadIndex, h1]

/-- Settles O17: the fetch is `MemRead` at `IP`; in the last cell parameter 1 is past the end. -/
theorem fetchReadsTheCellAtIp : Obligations.FetchReadsTheCellAtIp := by
  unfold Obligations.FetchReadsTheCellAtIp
  intro s hr
  refine ⟨State.memRead_of_inBounds, fun hout => ?outOfRange, fun hlast h0 => ?lastCell⟩
  case outOfRange =>
    have hb : ¬ s.InBounds s.ip.toInt := State.not_inBounds_iff.mpr hout
    have faults : ∀ map : OpcodeMap, ∃ t, stepWith map s = .next t ∧ FaultEntry s t .outOfBoundsAccess s.ip.toInt :=
      fun map => ⟨_, stepWith_of_fetch_error hr (fetchInstrWith_of_not_inBounds hb map), s.faultEntry_outOfBounds _⟩
    exact ⟨State.memRead_of_not_inBounds hb, faults opcodeMap, faults⟩
  case lastCell =>
    have hb : s.InBounds s.ip.toInt := ⟨h0, by omega⟩
    have hnext : ¬ s.InBounds (s.ip.toInt + 1) := State.not_inBounds_iff.mpr (by omega)
    refine ⟨fun hd => ?halt, fun i hd hi => ?other⟩
    case halt => exact ⟨_, stepWith_of_decode_ok hr hb hd, s.haltWith_status _, s.haltWith_cause _⟩
    case other =>
      have hx := exec_of_firstBadIndex_eq_some (decode_wellFormed hd) (State.firstBadIndex_of_first_param hi hnext)
      exact ⟨_, (stepWith_of_decode_ok hr hb hd).trans hx, s.faultEntry_outOfBounds _⟩

end Sys2Proof.Machine

/-! ### Operands (40_execution_cycle.md R74 to R79) -/

namespace Sys2Proof.Machine

open Sys2Proof.Claims

/-- Settles O23: a parameter is `MemRead` at `IP + k`, which is not negative here. -/
theorem parameterIsTheCellAtIpPlusK : Obligations.ParameterIsTheCellAtIpPlusK := by
  unfold Obligations.ParameterIsTheCellAtIpPlusK
  intro s k h0
  exact ⟨fun h => State.memRead_of_inBounds ⟨by omega, h⟩,
    fun h => State.memRead_of_not_inBounds (State.not_inBounds_iff.mpr (.inr h))⟩

theorem State.readOperand_immediate (s : State) (k : Nat) : s.readOperand k .immediate = s.param k := by
  unfold State.readOperand
  cases s.param k <;> rfl

/-- Settles O24: an Immediate read stops at the parameter, and the decoder answers well-formed instructions only. -/
theorem immediateOperandIsTheParameter : Obligations.ImmediateOperandIsTheParameter := by
  unfold Obligations.ImmediateOperandIsTheParameter
  exact ⟨State.readOperand_immediate, fun _ _ h => Instr.wf_destination (decode_wellFormed h)⟩

/-! #### Relative: the exact sum of the parameter and `RB` is the index -/

theorem State.readOperand_relative_of_param_ok {s : State} {k : Nat} {p : Word} (h : s.param k = .ok p) :
    s.readOperand k .relative = s.memRead (p.toInt + s.rb.toInt) := by
  rw [State.readOperand, h]
  rfl

theorem State.writeTarget_relative_of_param_ok {s : State} {k : Nat} {p : Word} (h : s.param k = .ok p) :
    s.writeTarget k .relative = s.checkTarget (p.toInt + s.rb.toInt) := by
  rw [State.writeTarget, h]
  rfl

/-- A sum outside the array, whether it fits 64 bits or not, is the index both resolve functions raise. -/
theorem State.relative_of_not_inBounds {s : State} {k : Nat} {p : Word} (h : s.param k = .ok p)
    (hb : ¬ s.InBounds (p.toInt + s.rb.toInt)) :
    s.readOperand k .relative = .error (.outOfBoundsAccess (p.toInt + s.rb.toInt)) ∧
      s.writeTarget k .relative = .error (.outOfBoundsAccess (p.toInt + s.rb.toInt)) := by
  rw [State.readOperand_relative_of_param_ok h, State.writeTarget_relative_of_param_ok h]
  exact ⟨State.memRead_of_not_inBounds hb, State.checkTarget_of_not_inBounds hb⟩

/-- Settles O26: a Relative read is `MemRead` at the sum and a Relative target is the check of it. -/
theorem relativeOperandAddsTheBase : Obligations.RelativeOperandAddsTheBase := by
  unfold Obligations.RelativeOperandAddsTheBase
  refine ⟨fun s k p hp => ⟨fun hin => ?inRange, fun hout => ?outOfRange⟩, fun s k e he => ?notFetched⟩
  case inRange =>
    rw [State.readOperand_relative_of_param_ok hp, State.writeTarget_relative_of_param_ok hp]
    exact ⟨State.memRead_of_inBounds hin, State.checkTarget_of_inBounds hin⟩
  case outOfRange => exact State.relative_of_not_inBounds hp (State.not_inBounds_iff.mpr hout)
  case notFetched =>
    exact ⟨State.readOperand_of_param_error he .relative, State.writeTarget_of_param_error he .relative⟩

theorem exec_output_of_readOperand_error {s : State} {a : Mode} {e : Raised} (h : s.readOperand 1 a = .error e) :
    exec (.output a) s = .next (s.takeFault e) := by
  show s.finish (s.outputOp a) = _
  rw [State.outputOp, h]
  rfl

/-- `MEMLEN` is far below 2^63, so an index that does not fit 64 bits is outside the array (log 11). -/
theorem State.Inv.not_inBounds_of_overflow {s : State} (h : s.Inv) {a : Int} (ha : a < -2 ^ 63 ∨ a ≥ 2 ^ 63) :
    ¬ s.InBounds a := by
  have hl : s.memLen ≤ 2 ^ 62 := h.memLenLe
  exact State.not_inBounds_iff.mpr (by omega)

/-- Settles O27: an overflowing sum is out of bounds, and Output enters the fault of its operand. -/
theorem overflowingAddressIsOutOfBounds : Obligations.OverflowingAddressIsOutOfBounds := by
  unfold Obligations.OverflowingAddressIsOutOfBounds
  intro s k p hinv hp hover
  obtain ⟨hread, hwrite⟩ := State.relative_of_not_inBounds hp (hinv.not_inBounds_of_overflow hover)
  refine ⟨hread, hwrite, ?_⟩
  rintro rfl
  exact ⟨_, exec_output_of_readOperand_error hread, s.faultEntry_outOfBounds _⟩

end Sys2Proof.Machine

/-! ### Results, frames and completion of the ten instructions (41_arithmetic.md to 46_halt.md) -/

namespace Sys2Proof.Machine

open Sys2Proof.Claims

/-! #### Operands that resolve -/

/-- An RRW instruction whose operands resolve completes with its effect. -/
theorem exec_rrw {s : State} {i : Instr} {a b d : Mode} (ho : i.operands = [(1, a), (2, b), (3, d)])
    (hi : i.destination = some d) (ha : s.Readable 1 a) (hb : s.Readable 2 b) (hd : s.Writable 3 d) :
    ∃ t, exec i s = .next t ∧ Effect s t i :=
  exec_of_firstBadIndex_eq_none (Instr.wellFormed_of_destination hi hd.2.1) (ho ▸ State.firstBadIndex_rrw ha hb hd)

/-! #### The four RRW instructions -/

/-- The shared result of the RRW instructions: `w` in the destination cell, `IP + 4`, and nothing else. -/
theorem State.Inv.storesAndAdvances {s : State} (h : s.Inv) {d : Mode} (hd : s.Writable 3 d) {w : Word} {v : Int}
    (hv : w.toInt = v) : StoresAndAdvances s ((s.setCell (s.operandIndex 3 d).toNat w).advance 4) d v :=
  ⟨⟨w, hv, State.onlyCell_setCell h.memWf _ w⟩,
    State.advance_ip_toInt (s := s.setCell _ w) (k := 3) h.memLenLe hd.1 (by decide), rfl, rfl, ⟨rfl, rfl, rfl, rfl⟩,
    ⟨rfl, rfl, rfl, rfl⟩⟩

/-- Settles O28: Add's effect stores `addValue`, the wrapped sum. -/
theorem addStoresWrappedSum : Obligations.AddStoresWrappedSum := by
  unfold Obligations.AddStoresWrappedSum
  intro s a b d hinv ha hb hd
  obtain ⟨t, ht, rfl⟩ := exec_rrw (i := .add a b d) rfl rfl ha hb hd
  exact ⟨_, ht, hinv.storesAndAdvances hd (addValue_toInt _ _)⟩

/-- Settles O29: Multiply's effect stores `multiplyValue`, the wrapped product. -/
theorem multiplyStoresWrappedProduct : Obligations.MultiplyStoresWrappedProduct := by
  unfold Obligations.MultiplyStoresWrappedProduct
  intro s a b d hinv ha hb hd
  obtain ⟨t, ht, rfl⟩ := exec_rrw (i := .multiply a b d) rfl rfl ha hb hd
  exact ⟨_, ht, hinv.storesAndAdvances hd (multiplyValue_toInt _ _)⟩

/-- Settles O30: LessThan's effect stores `lessThanValue`. -/
theorem lessThanStoresTruthValue : Obligations.LessThanStoresTruthValue := by
  unfold Obligations.LessThanStoresTruthValue
  intro s a b d hinv ha hb hd
  obtain ⟨t, ht, rfl⟩ := exec_rrw (i := .lessThan a b d) rfl rfl ha hb hd
  exact ⟨_, ht, hinv.storesAndAdvances hd (lessThanValue_toInt _ _)⟩

/-- Settles O31: Equals' effect stores `equalsValue`; cells are equal when their signed readings are. -/
theorem equalsStoresTruthValue : Obligations.EqualsStoresTruthValue := by
  unfold Obligations.EqualsStoresTruthValue
  intro s a b d hinv ha hb hd
  obtain ⟨t, ht, rfl⟩ := exec_rrw (i := .equals a b d) rfl rfl ha hb hd
  refine ⟨_, ht, hinv.storesAndAdvances hd ?_⟩
  simp only [equalsValue_toInt, word_toInt_inj]

/-! #### Input and Output -/

theorem exec_input {s : State} {d : Mode} (hd : s.Writable 1 d) :
    ∃ t, exec (.input d) s = .next t ∧ Effect s t (.input d) :=
  exec_of_firstBadIndex_eq_none (Instr.wellFormed_of_destination rfl hd.2.1) (State.firstBadIndex_w hd)

theorem exec_input_of_value {s : State} {d : Mode} {v : Word} (hd : s.Writable 1 d) (hp : s.inPoll = .value v) :
    exec (.input d) s = .next ((s.inTake.setCell (s.operandIndex 1 d).toNat v).advance 2) := by
  obtain ⟨t, ht, ⟨w, hw, rfl⟩ | ⟨hc, -⟩ | ⟨he, -⟩⟩ := exec_input hd
  · cases hp.symm.trans hw; exact ht
  · exact nomatch hp.symm.trans hc
  · exact nomatch hp.symm.trans he

theorem exec_input_of_closed {s : State} {d : Mode} (hd : s.Writable 1 d) (hp : s.inPoll = .closed) :
    exec (.input d) s = .next (s.haltWith .inputClosed) := by
  obtain ⟨t, ht, ⟨w, hw, -⟩ | ⟨-, rfl⟩ | ⟨he, -⟩⟩ := exec_input hd
  · exact nomatch hp.symm.trans hw
  · exact ht
  · exact nomatch hp.symm.trans he

theorem exec_input_of_empty {s : State} {d : Mode} (hd : s.Writable 1 d) (hp : s.inPoll = .empty) :
    exec (.input d) s = .next s := by
  obtain ⟨t, ht, ⟨w, hw, -⟩ | ⟨hc, -⟩ | ⟨-, rfl⟩⟩ := exec_input hd
  · exact nomatch hp.symm.trans hw
  · exact nomatch hp.symm.trans hc
  · exact ht

/-- Settles O32: with a value at the head, Input stores it and takes it. -/
theorem inputStoresTheHead : Obligations.InputStoresTheHead := by
  unfold Obligations.InputStoresTheHead
  intro s d v rest hinv hd hq
  refine ⟨_, exec_input_of_value hd (inPoll_eq_value_iff.mpr ⟨rest, hq⟩),
    State.onlyCell_setCell (s := s.inTake) hinv.memWf _ v, congrArg List.tail hq, ?_, rfl, rfl, ⟨rfl, rfl, rfl, rfl⟩, rfl,
    rfl, rfl⟩
  exact State.advance_ip_toInt (s := s.inTake.setCell _ v) (k := 1) hinv.memLenLe hd.1 (by decide)

/-- Settles O38: on a closed, empty channel Input is a halt, which sets STATUS and CAUSE only. -/
theorem inputOnClosedChannelHalts : Obligations.InputOnClosedChannelHalts := by
  unfold Obligations.InputOnClosedChannelHalts
  intro s d hd hq hc
  exact ⟨_, exec_input_of_closed hd (inPoll_eq_closed_iff.mpr ⟨hq, hc⟩), rfl, rfl, rfl, fun _ => rfl, rfl, rfl, rfl, rfl,
    rfl, rfl, rfl, rfl⟩

/-- A destination resolves by memory, `IP` and `RB` alone. -/
theorem State.Writable.congr {s t : State} {k : Nat} {d : Mode} (h : s.Writable k d) (h1 : t.mem = s.mem)
    (h2 : t.memLen = s.memLen) (h3 : t.ip = s.ip) (h4 : t.rb = s.rb) : t.Writable k d := by
  unfold State.Writable State.InBounds at h ⊢
  rwa [operandIndex_congr h1 h3 h4, h2, h3]

/-- Settles O39: the host's act leaves the destination as it resolved and changes what `InPoll` answers. -/
theorem inputHoldsUntilTheHostActs : Obligations.InputHoldsUntilTheHostActs := by
  unfold Obligations.InputHoldsUntilTheHostActs
  intro s d v hinv hd hq hc
  refine ⟨exec_input_of_empty hd (inPoll_eq_empty_iff.mpr ⟨hq, hc⟩), ?value, ?closed⟩
  case value =>
    have happend : s.hostAppend v = { s with inQ := [v] } := by simp [hostAppend_eq, hq, hc]
    have hi : State.operandIndex { s with inQ := [v] } 1 d = s.operandIndex 1 d := operandIndex_congr rfl rfl rfl 1 d
    obtain ⟨t, ht, hcell, hq', hip, -⟩ := inputStoresTheHead { s with inQ := [v] } d v []
      (hinv.congr rfl rfl rfl rfl rfl) (hd.congr rfl rfl rfl rfl) rfl
    rw [hi] at hcell
    exact ⟨t, happend ▸ ht, hcell, hq', hip⟩
  case closed =>
    have hcl : s.hostCloseInput.Writable 1 d := hd.congr rfl rfl rfl rfl
    exact ⟨_, exec_input_of_closed hcl (inPoll_eq_closed_iff.mpr ⟨hq, rfl⟩), rfl, rfl, rfl⟩

theorem exec_output {s : State} {a : Mode} (ha : s.Readable 1 a) :
    ∃ t, exec (.output a) s = .next t ∧ Effect s t (.output a) :=
  exec_of_firstBadIndex_eq_none rfl (State.firstBadIndex_r ha)

/-- Settles O33: with a listener Output completes as `State.afterOutput`. -/
theorem outputAppendsAndRecords : Obligations.OutputAppendsAndRecords := by
  unfold Obligations.OutputAppendsAndRecords
  intro s a hinv ha hc
  obtain ⟨t, ht, he⟩ := exec_output ha
  obtain ⟨ho, -⟩ | ⟨-, rfl⟩ := effect_output_iff.mp he
  · exact nomatch hc.symm.trans ho
  · refine ⟨_, ht, rfl, rfl, ?_, fun _ => rfl, rfl, ⟨rfl, rfl, rfl, rfl⟩, rfl, rfl, rfl⟩
    exact State.advance_ip_toInt (k := 1) hinv.memLenLe ha.1 (by decide)

/-- Settles O40: without a listener Output is the entry of its fault. -/
theorem outputWithoutListenerFaults : Obligations.OutputWithoutListenerFaults := by
  unfold Obligations.OutputWithoutListenerFaults
  intro s a ha hc
  obtain ⟨t, ht, he⟩ := exec_output ha
  obtain ⟨-, rfl⟩ | ⟨ho, -⟩ := effect_output_iff.mp he
  · exact ⟨_, ht, s.faultEntry_outputChannelClosed _⟩
  · exact nomatch hc.symm.trans ho

/-! #### The two jumps -/

theorem State.onlyIp_jumpTo (s : State) (v : Word) : OnlyIp s (s.jumpTo v) :=
  ⟨fun _ => rfl, rfl, rfl, ⟨rfl, rfl, rfl, rfl⟩, rfl, rfl, rfl, rfl⟩

/-- A jump goes to its second operand if it is taken, past itself otherwise, and changes `IP` only. -/
theorem State.Inv.branch {s : State} (h : s.Inv) (hb : s.InBounds (s.ip.toInt + 2)) (v : Word) (taken : Bool) :
    OnlyIp s (if taken then s.jumpTo v else s.advance 3) ∧
      (taken = true → (if taken then s.jumpTo v else s.advance 3).ip = v) ∧
      (taken = false → (if taken then s.jumpTo v else s.advance 3).ip.toInt = s.ip.toInt + 3) := by
  cases taken
  · exact ⟨s.onlyIp_jumpTo _, nofun, fun _ => State.advance_ip_toInt (k := 2) h.memLenLe hb (by decide)⟩
  · exact ⟨s.onlyIp_jumpTo v, fun _ => rfl, nofun⟩

/-- Settles O34: JumpIfTrue is the shared branch on its first operand's test for a value other than 0. -/
theorem jumpIfTrueTransfersOnNonZero : Obligations.JumpIfTrueTransfersOnNonZero := by
  unfold Obligations.JumpIfTrueTransfersOnNonZero
  intro s a b hinv ha hb
  obtain ⟨t, ht, rfl⟩ := exec_of_firstBadIndex_eq_none (i := .jumpIfTrue a b) rfl (State.firstBadIndex_rr ha hb)
  obtain ⟨honly, htaken, hnot⟩ := hinv.branch hb.1 (s.operandValue 2 b) (isTrue (s.operandValue 1 a))
  exact ⟨_, ht, honly, fun h => htaken ((isTrue_iff _).mpr h), fun h => hnot (by simp [isTrue, h])⟩

/-- Settles O35: JumpIfFalse is the shared branch on its first operand's test for 0. -/
theorem jumpIfFalseTransfersOnZero : Obligations.JumpIfFalseTransfersOnZero := by
  unfold Obligations.JumpIfFalseTransfersOnZero
  intro s a b hinv ha hb
  obtain ⟨t, ht, rfl⟩ := exec_of_firstBadIndex_eq_none (i := .jumpIfFalse a b) rfl (State.firstBadIndex_rr ha hb)
  obtain ⟨honly, htaken, hnot⟩ := hinv.branch hb.1 (s.operandValue 2 b) (isFalse (s.operandValue 1 a))
  exact ⟨_, ht, honly, fun h => htaken ((isFalse_iff _).mpr h), fun h => hnot (by simp [isFalse, h])⟩

/-! #### AdjustRelativeBase and Halt -/

/-- Settles O36: the effect sets `RB` to the wrapped sum; the operand was read before that. -/
theorem adjustAddsToRelativeBase : Obligations.AdjustAddsToRelativeBase := by
  unfold Obligations.AdjustAddsToRelativeBase
  intro s a hinv ha
  obtain ⟨t, ht, rfl⟩ := exec_of_firstBadIndex_eq_none (i := .adjustRelativeBase a) rfl (State.firstBadIndex_r ha)
  refine ⟨_, ht, wrap64_toInt _, ?_, fun _ => rfl, rfl, ⟨rfl, rfl, rfl, rfl⟩, rfl, rfl, rfl, rfl⟩
  exact State.advance_ip_toInt (s := s.setRb _) (k := 1) hinv.memLenLe ha.1 (by decide)

/-- Settles O37: Halt has no operand to resolve and is `State.haltWith`. -/
theorem haltEndsTheRun : Obligations.HaltEndsTheRun := by
  unfold Obligations.HaltEndsTheRun
  intro s
  exact ⟨s.haltWith .halt, rfl, rfl, rfl, rfl, fun _ => rfl, rfl, rfl, rfl, rfl, rfl, rfl, rfl, rfl⟩

/-! #### A store into the next word (20_memory.md R44) -/

theorem fetch_of_cell {t : State} {a : Int} {w : Word} (hip : t.ip.toInt = a) (hb : t.InBounds a)
    (hc : t.cell a.toNat = w) : t.fetch = .ok w := by
  subst hip; subst hc
  exact State.memRead_of_inBounds hb

/-- What an RRW instruction stores at `IP + 4` is the word fetched next. -/
theorem nextFetchReads_of_stores {s : State} {i : Instr} {d : Mode} {v : Int}
    (h : ∃ t, exec i s = .next t ∧ StoresAndAdvances s t d v) (hd : s.Writable 3 d)
    (hi : s.operandIndex 3 d = s.ip.toInt + 4) : NextFetchReads i s v := by
  obtain ⟨t, ht, ⟨w, hw, hcell, -⟩, hip, -, -, ⟨-, -, -, hlen⟩, -⟩ := h
  have hb : t.InBounds (s.operandIndex 3 d) := by
    rw [State.InBounds, hlen]; exact hd.inBounds
  exact ⟨t, w, ht, fetch_of_cell (hip.trans hi.symm) hb hcell, hw⟩

/-- Settles O52: each storing instruction's result, its destination being where `IP` is after it. -/
theorem storeIsSeenByTheNextFetch : Obligations.StoreIsSeenByTheNextFetch := by
  unfold Obligations.StoreIsSeenByTheNextFetch
  refine ⟨fun s a b d hinv ha hb hd hi => ?rrw, fun s d v rest hinv hd hq hi => ?input⟩
  case rrw =>
    exact ⟨nextFetchReads_of_stores (addStoresWrappedSum s a b d hinv ha hb hd) hd hi,
      nextFetchReads_of_stores (multiplyStoresWrappedProduct s a b d hinv ha hb hd) hd hi,
      nextFetchReads_of_stores (lessThanStoresTruthValue s a b d hinv ha hb hd) hd hi,
      nextFetchReads_of_stores (equalsStoresTruthValue s a b d hinv ha hb hd) hd hi⟩
  case input =>
    obtain ⟨t, ht, ⟨hcell, -⟩, -, hip, -, -, ⟨-, -, -, hlen⟩, -⟩ := inputStoresTheHead s d v rest hinv hd hq
    have hb : t.InBounds (s.operandIndex 1 d) := by
      rw [State.InBounds, hlen]; exact hd.inBounds
    exact ⟨t, v, ht, fetch_of_cell (hip.trans hi.symm) hb hcell, rfl⟩

end Sys2Proof.Machine

/-! ### Whole-machine rules, read off the kinds of change (10_state.md sections 3 to 5 and 13; 60_exceptions.md) -/

namespace Sys2Proof.Machine

open Sys2Proof.Claims

/-! #### Faults and endings -/

/-- An instruction that ends Faulted has entered a fault. -/
theorem Change.eq_takeFault_of_faulted {s t : State} {i : Instr} (h : Change s i t) (hr : s.status = .running)
    (ht : t.status = .faulted) : ∃ e, t = s.takeFault e := by
  have contra : s.status ≠ .faulted := by simp [hr]
  cases h with
  | operandFault => exact ⟨_, rfl⟩
  | noListener => exact ⟨_, rfl⟩
  | store => exact absurd ht contra
  | jump => exact absurd ht contra
  | receive => exact absurd ht contra
  | inputEnd => cases ht
  | hold => exact absurd ht contra
  | send => exact absurd ht contra
  | rebase => exact absurd ht contra
  | halt => cases ht

/-- Settles O42: a step that ends Faulted is a fault entry, which names all it changes. -/
theorem faultsArePrecise : Obligations.FaultsArePrecise := by
  unfold Obligations.FaultsArePrecise
  intro s t hr hs ht
  have entry : ∃ e, t = s.takeFault e := by
    cases step_change hs with
    | terminal hn => exact absurd hr hn
    | fetchFault => exact ⟨_, rfl⟩
    | instr _ _ hc => exact hc.eq_takeFault_of_faulted hr ht
  obtain ⟨e, rfl⟩ := entry
  rfl

/-- Settles O46: of the kinds of change, those that end a Running run are the five named. -/
theorem runsEndInFiveWays : Obligations.RunsEndInFiveWays := by
  unfold Obligations.RunsEndInFiveWays
  intro s t hr hs ht
  cases step_change hs with
  | terminal hn => exact absurd hr hn
  | fetchFault _ hf =>
    obtain ⟨hb, rfl⟩ | ⟨-, hd, rfl⟩ := fetchInstrWith_error_cases hf
    · exact .inr (.inr (.inr (.inl ⟨rfl, rfl, _, State.not_inBounds_iff.mp hb, rfl, .inl rfl⟩)))
    · exact .inr (.inr (.inl ⟨rfl, rfl, rfl, hd⟩))
  | instr _ hf hc =>
    cases hc with
    | operandFault hb =>
      have hout := State.not_inBounds_iff.mp (State.firstBadIndex_outOfBounds hb)
      exact .inr (.inr (.inr (.inl ⟨rfl, rfl, _, hout, rfl, .inr ⟨_, hf, hb⟩⟩)))
    | store => exact absurd hr ht
    | jump => exact absurd hr ht
    | receive => exact absurd hr ht
    | inputEnd _ hp =>
      obtain ⟨hq, hcl⟩ := inPoll_eq_closed_iff.mp hp
      exact .inr (.inl ⟨rfl, rfl, hq, hcl, _, hf⟩)
    | hold => exact absurd hr ht
    | send => exact absurd hr ht
    | noListener _ hcl => exact .inr (.inr (.inr (.inr ⟨rfl, rfl, hcl, _, hf, rfl⟩)))
    | rebase => exact absurd hr ht
    | halt => exact .inl ⟨rfl, rfl, hf⟩

/-! #### The five outcomes -/

theorem State.stepKind_of_held {s : State} (h : s.held = true) : s.stepKind = .hold := by
  simp [State.stepKind, (held_iff.mp h).1, h]

/-- The outcome of a step that is no hold, by the status it leaves (00_scope.md section 5). -/
def Status.stepKind : Status → StepKind
  | .running => .next
  | .halted => .halt
  | .faulted => .fault

theorem State.stepKind_of_step {s t : State} (hr : s.status = .running) (hh : s.held = false) (h : step s = .next t) :
    s.stepKind = t.status.stepKind := by
  simp only [State.stepKind, hr, hh, h, Bool.false_eq_true, if_false]
  cases t.status <;> rfl

/-- Settles O22: a terminal or held state stays; any other outcome is the status after the step, and a run that halts
does so in one of the two ways of R150. -/
theorem fiveOutcomesOfAStep : Obligations.FiveOutcomesOfAStep := by
  unfold Obligations.FiveOutcomesOfAStep
  intro s
  by_cases hr : s.status = .running
  · cases hh : s.held with
    | true =>
      obtain ⟨hq, hc⟩ := inPoll_eq_empty_iff.mp (held_iff.mp hh).2.choose_spec.2.2
      rw [State.stepKind_of_held hh]
      exact ⟨s, step_of_held hh, hr, rfl, hq, hc⟩
    | false =>
      obtain ⟨t, ht⟩ := stepWith_next opcodeMap s
      refine ⟨t, ht, ?_⟩
      rw [State.stepKind_of_step hr hh ht]
      cases hst : t.status with
      | running => exact ⟨hr, rfl, rfl⟩
      | faulted => exact ⟨hr, rfl⟩
      | halted =>
        obtain ⟨-, hc, -⟩ | ⟨-, hc, -⟩ | ⟨hf, -⟩ | ⟨hf, -⟩ | ⟨hf, -⟩ := runsEndInFiveWays s t hr ht (by simp [hst])
        · exact ⟨hr, rfl, .inl hc⟩
        · exact ⟨hr, rfl, .inr hc⟩
        · exact nomatch hst.symm.trans hf
        · exact nomatch hst.symm.trans hf
        · exact nomatch hst.symm.trans hf
  · rw [State.stepKind_of_not_running hr]
    exact ⟨s, stepWith_of_not_running hr, hr, rfl⟩

/-! #### Registers and channels -/

theorem Change.memLen_eq {s t : State} {i : Instr} (h : Change s i t) : t.memLen = s.memLen := by
  cases h <;> rfl

theorem Change.rb_eq_or_adjust {s t : State} {i : Instr} (h : Change s i t) :
    t.rb = s.rb ∨ ∃ a, i = .adjustRelativeBase a := by
  cases h with
  | rebase => exact .inr ⟨_, rfl⟩
  | _ => exact .inl rfl

/-- Settles O47: no kind of change sets `MEMLEN`, and only one sets `RB`. -/
theorem onlyAdjustChangesRelativeBase : Obligations.OnlyAdjustChangesRelativeBase := by
  unfold Obligations.OnlyAdjustChangesRelativeBase
  intro s t hs
  cases step_change hs with
  | terminal => exact ⟨rfl, fun hne => absurd rfl hne⟩
  | fetchFault => exact ⟨rfl, fun hne => absurd rfl hne⟩
  | instr hr hf hc =>
    refine ⟨hc.memLen_eq, fun hne => ⟨hr, ?_⟩⟩
    obtain ⟨a, rfl⟩ := hc.rb_eq_or_adjust.resolve_left hne
    exact ⟨a, hf⟩

/-- `OutClosed` is no part of what an instruction changes; for `InClosed` see `Effect.inClosed_eq`. -/
theorem Change.outClosed_eq {s t : State} {i : Instr} (h : Change s i t) : t.outClosed = s.outClosed := by
  cases h <;> rfl

theorem stepWith_outClosed {map : OpcodeMap} {s t : State} (h : stepWith map s = .next t) :
    t.outClosed = s.outClosed := by
  cases stepWith_change h with
  | terminal => rfl
  | fetchFault => rfl
  | instr _ _ hc => exact hc.outClosed_eq

theorem Change.inQ_eq_or_input {s t : State} {i : Instr} (h : Change s i t) :
    t.inQ = s.inQ ∨ ∃ d v, i = .input d ∧ s.inQ = v :: t.inQ := by
  cases h with
  | receive _ hp => exact .inr ⟨_, _, rfl, inQ_eq_cons_inTake_of_inPoll hp⟩
  | _ => exact .inl rfl

theorem Change.outQ_eq_or_output {s t : State} {i : Instr} (h : Change s i t) :
    t.outQ = s.outQ ∨ (s.outClosed = false ∧ ∃ a, i = .output a ∧ t.outQ = s.outQ ++ [s.operandValue 1 a]) := by
  cases h with
  | send _ hc => exact .inr ⟨hc, _, rfl, rfl⟩
  | _ => exact .inl rfl

/-- Settles O49: one kind of change takes from `InQ` and one adds to `OutQ`, and none closes a channel. -/
theorem channelsChangeOnlyByInputAndOutput : Obligations.ChannelsChangeOnlyByInputAndOutput := by
  unfold Obligations.ChannelsChangeOnlyByInputAndOutput
  intro s t hs
  refine ⟨stepWith_inClosed hs, stepWith_outClosed hs, ?_⟩
  cases step_change hs with
  | terminal => exact ⟨fun hne => absurd rfl hne, fun hne => absurd rfl hne⟩
  | fetchFault => exact ⟨fun hne => absurd rfl hne, fun hne => absurd rfl hne⟩
  | instr _ hf hc =>
    refine ⟨fun hne => ?_, fun hne => ?_⟩
    · obtain ⟨d, v, rfl, hq⟩ := hc.inQ_eq_or_input.resolve_left hne
      exact ⟨d, v, hf, hq⟩
    · obtain ⟨-, a, rfl, hq⟩ := hc.outQ_eq_or_output.resolve_left hne
      exact ⟨a, hf, hq⟩

/-! #### Memory -/

/-- An instruction leaves every cell, or has a destination and writes the cell its last operand names. -/
theorem Change.sameCells_or_onlyCell {s t : State} {i : Instr} (h : Change s i t) (hm : s.mem.wf = true) :
    SameCells s t ∨
      ∃ d v, i.destination = some d ∧ OnlyCell s t (s.operandIndex i.operands.length d).toNat v := by
  cases h with
  | store v hd hn => rw [hn]; exact .inr ⟨_, v, hd, State.onlyCell_setCell hm _ v⟩
  | receive => exact .inr ⟨_, _, rfl, State.onlyCell_setCell (s := s.inTake) hm _ _⟩
  | _ => exact .inl fun _ => rfl

theorem Change.cell_eq_of_ne {s t : State} {i : Instr} (h : Change s i t) (hm : s.mem.wf = true) {d : Mode}
    (hd : i.destination = some d) {j : Nat} (hj : j ≠ (s.operandIndex i.operands.length d).toNat) :
    t.cell j = s.cell j := by
  obtain hsame | ⟨d', v, hd', -, hframe⟩ := h.sameCells_or_onlyCell hm
  · exact hsame j
  · cases hd.symm.trans hd'; exact hframe j hj

theorem Change.sameCells {s t : State} {i : Instr} (h : Change s i t) (hm : s.mem.wf = true)
    (hd : i.destination = none) : SameCells s t := by
  obtain hsame | ⟨d, v, hd', -⟩ := h.sameCells_or_onlyCell hm
  · exact hsame
  · exact nomatch hd.symm.trans hd'

/-- Settles O50: only a change by a fetched instruction writes, and then its destination. -/
theorem stepsWriteOnlyTheirDestination : Obligations.StepsWriteOnlyTheirDestination := by
  unfold Obligations.StepsWriteOnlyTheirDestination
  intro s t hinv hs
  have same : SameCells s s := fun _ => rfl
  cases step_change hs with
  | terminal => exact ⟨fun _ _ _ _ j _ => same j, fun _ _ _ => same, fun _ _ => same, fun _ => same⟩
  | fetchFault => exact ⟨fun _ _ _ _ j _ => same j, fun _ _ _ => same, fun _ _ => same, fun _ => same⟩
  | instr hr hf hc =>
    refine ⟨fun i d hi hd j hj => ?_, fun i hi hd => ?_, fun e he => ?_, fun hn => absurd hr hn⟩
    · cases hf.symm.trans hi; exact hc.cell_eq_of_ne hinv.memWf hd hj
    · cases hf.symm.trans hi; exact hc.sameCells hinv.memWf hd
    · exact nomatch hf.symm.trans he

end Sys2Proof.Machine

/-! ### CORE sees of the channels only `InPoll` and the listener (40_execution_cycle.md R83) -/

namespace Sys2Proof.Machine

/-! #### What CORE resolves does not depend on the channels -/

@[simp] theorem operandIndex_bindChannels (s : State) (c : Channels) (k : Nat) (m : Mode) :
    (s.bindChannels c).operandIndex k m = s.operandIndex k m := operandIndex_congr rfl rfl rfl k m

@[simp] theorem operandValue_bindChannels (s : State) (c : Channels) (k : Nat) (m : Mode) :
    (s.bindChannels c).operandValue k m = s.operandValue k m := operandValue_congr rfl rfl rfl k m

@[simp] theorem firstBadIndex_bindChannels (s : State) (c : Channels) (l : List (Nat × Mode)) :
    (s.bindChannels c).firstBadIndex l = s.firstBadIndex l :=
  firstBadIndex_congr (s := s) (t := s.bindChannels c) rfl rfl rfl rfl l

/-- States with equal CORE states differ in their channels only. -/
theorem State.eq_bindChannels_of_coreView_eq {s s' : State} (h : s'.coreView = s.coreView) :
    s' = s.bindChannels s'.channels := by
  cases s; cases s'
  cases h
  rfl

/-- Two operations end alike for CORE: in the same CORE state, or by the same fault. -/
def SameCore (r r' : Except Raised State) : Prop :=
  r'.map State.coreView = r.map State.coreView

theorem finish_of_sameCore {s t : State} {c : Channels} {r r' : Except Raised State} (hr : SameCore r r')
    (h : s.finish r = .next t) : ∃ t', (s.bindChannels c).finish r' = .next t' ∧ t'.coreView = t.coreView := by
  cases r with
  | error e =>
    cases r' with
    | error e' => cases hr; cases h; exact ⟨_, rfl, rfl⟩
    | ok u' => cases hr
  | ok u =>
    cases r' with
    | error e' => cases hr
    | ok u' => cases h; exact ⟨u', rfl, Except.ok.inj hr⟩

/-! #### The operations -/

theorem binaryOp_bindChannels (s : State) (c : Channels) (f : Word → Word → Word) (a b : Mode) {d : Mode}
    (hd : d ≠ .immediate) : SameCore (s.binaryOp f a b d) ((s.bindChannels c).binaryOp f a b d) := by
  simp only [SameCore, State.binaryOp_eq _ f a b hd, firstBadIndex_bindChannels, operandIndex_bindChannels,
    operandValue_bindChannels]
  cases s.firstBadIndex [(1, a), (2, b), (3, d)] <;> rfl

theorem branchOp_bindChannels (s : State) (c : Channels) (p : Word → Bool) (a b : Mode) :
    SameCore (s.branchOp p a b) ((s.bindChannels c).branchOp p a b) := by
  simp only [SameCore, State.branchOp_eq, firstBadIndex_bindChannels, operandValue_bindChannels]
  cases s.firstBadIndex [(1, a), (2, b)] with
  | some i => rfl
  | none => cases p (s.operandValue 1 a) <;> rfl

theorem adjustOp_bindChannels (s : State) (c : Channels) (a : Mode) :
    SameCore (s.adjustOp a) ((s.bindChannels c).adjustOp a) := by
  simp only [SameCore, State.adjustOp_eq, firstBadIndex_bindChannels, operandValue_bindChannels]
  cases s.firstBadIndex [(1, a)] <;> rfl

/-- Input asks `InPoll`, so its answer is all that matters. -/
theorem inputOp_bindChannels {s : State} {c : Channels} (hp : (s.bindChannels c).inPoll = s.inPoll) {d : Mode}
    (hd : d ≠ .immediate) : SameCore (s.inputOp d) ((s.bindChannels c).inputOp d) := by
  simp only [SameCore, State.inputOp_eq _ hd, firstBadIndex_bindChannels, operandIndex_bindChannels, hp]
  cases s.firstBadIndex [(1, d)] with
  | some i => rfl
  | none => cases s.inPoll <;> rfl

/-- Output asks whether there is a listener. -/
theorem outputOp_bindChannels {s : State} {c : Channels} (ho : (s.bindChannels c).outClosed = s.outClosed) (a : Mode) :
    SameCore (s.outputOp a) ((s.bindChannels c).outputOp a) := by
  simp only [SameCore, State.outputOp_eq, firstBadIndex_bindChannels, operandValue_bindChannels, ho]
  cases s.firstBadIndex [(1, a)] with
  | some i => rfl
  | none => cases s.outClosed <;> rfl

theorem exec_bindChannels {s t : State} {c : Channels} {i : Instr} (hw : i.WellFormed)
    (hp : (s.bindChannels c).inPoll = s.inPoll) (ho : (s.bindChannels c).outClosed = s.outClosed)
    (h : exec i s = .next t) : ∃ t', exec i (s.bindChannels c) = .next t' ∧ t'.coreView = t.coreView := by
  cases i with
  | add a b d => exact finish_of_sameCore (binaryOp_bindChannels s c _ a b (hw.ne_immediate rfl)) h
  | multiply a b d => exact finish_of_sameCore (binaryOp_bindChannels s c _ a b (hw.ne_immediate rfl)) h
  | lessThan a b d => exact finish_of_sameCore (binaryOp_bindChannels s c _ a b (hw.ne_immediate rfl)) h
  | equals a b d => exact finish_of_sameCore (binaryOp_bindChannels s c _ a b (hw.ne_immediate rfl)) h
  | jumpIfTrue a b => exact finish_of_sameCore (branchOp_bindChannels s c _ a b) h
  | jumpIfFalse a b => exact finish_of_sameCore (branchOp_bindChannels s c _ a b) h
  | input d => exact finish_of_sameCore (inputOp_bindChannels hp (hw.ne_immediate rfl)) h
  | output a => exact finish_of_sameCore (outputOp_bindChannels ho a) h
  | adjustRelativeBase a => exact finish_of_sameCore (adjustOp_bindChannels s c a) h
  | halt => cases h; exact ⟨_, rfl, rfl⟩

theorem stepWith_bindChannels {map : OpcodeMap} {s t : State} {c : Channels}
    (hp : (s.bindChannels c).inPoll = s.inPoll) (ho : (s.bindChannels c).outClosed = s.outClosed)
    (h : stepWith map s = .next t) : ∃ t', stepWith map (s.bindChannels c) = .next t' ∧ t'.coreView = t.coreView := by
  have hfetch : (s.bindChannels c).fetchInstrWith map = s.fetchInstrWith map := fetchInstrWith_congr rfl rfl rfl
  obtain ⟨hs, rfl⟩ | ⟨e, hr, he, rfl⟩ | ⟨i, hr, hi, hw, hx⟩ := stepWith_cases h
  · exact ⟨_, stepWith_of_not_running hs, rfl⟩
  · exact ⟨_, stepWith_of_fetch_error hr (hfetch.trans he), rfl⟩
  · rw [stepWith_of_fetch_ok (s := s.bindChannels c) hr (hfetch.trans hi)]
    exact exec_bindChannels hw hp ho hx

/-- Settles O51: the second state is the first with other channels, and a step commutes with that exchange. -/
theorem coreDependsOnlyOnPollAndListener : Obligations.CoreDependsOnlyOnPollAndListener := by
  unfold Obligations.CoreDependsOnlyOnPollAndListener
  intro s s' t hv hp ho h
  have hs' := State.eq_bindChannels_of_coreView_eq hv.symm
  rw [hs'] at hp ho ⊢
  exact stepWith_bindChannels hp.symm ho.symm h

end Sys2Proof.Machine

/-! ### The host's acts (10_state.md section 11; 70_reset_and_hazards.md section 1) -/

namespace Sys2Proof.Machine

open Sys2Proof.Claims

/-! #### Codes and Inspect -/

/-- Settles O53: both code functions are tables. -/
theorem statusAndCauseCodes : Obligations.StatusAndCauseCodes := by
  unfold Obligations.StatusAndCauseCodes
  exact ⟨rfl, rfl, rfl, rfl, rfl, rfl, rfl, rfl, rfl⟩

/-- Settles O54: Inspect asks for the status and nothing else. -/
theorem inspectOnlyTerminalStates : Obligations.InspectOnlyTerminalStates := by
  unfold Obligations.InspectOnlyTerminalStates State.inspect
  intro s
  cases s.status with
  | running => exact ⟨fun _ => rfl, fun h => absurd rfl h⟩
  | halted => exact ⟨nofun, fun _ => rfl⟩
  | faulted => exact ⟨nofun, fun _ => rfl⟩

/-! #### Reset -/

theorem State.inv_load (s : State) {slack : Nat} {p : List Word} (h : p.length + slack ≤ 2 ^ 62) :
    (s.load slack p).Inv where
  memWf := Memory.wf_ofCells p
  listed c hc := by
    have := (Memory.mem_ofCells hc).2
    rw [State.load_memLen]
    omega
  memLenLe := h
  runningClean _ := ⟨rfl, rfl⟩
  haltedCause := nofun
  faultedCause := nofun

theorem State.endExplained_load (s : State) (slack : Nat) (p : List Word) : (s.load slack p).EndExplained :=
  State.endExplained_of_cause_none rfl

/-- Settles O15: `State.reset` is a reset to the empty program. -/
theorem resetMeetsInvariants : Obligations.ResetMeetsInvariants := by
  unfold Obligations.ResetMeetsInvariants
  have hsmall : ([] : List Word).length + Config.slack ≤ 2 ^ 62 := by decide
  rw [State.reset_eq_load]
  exact ⟨State.inv_load _ hsmall, State.endExplained_load _ _ _, fun s slack p h =>
    ⟨s.inv_load h, s.endExplained_load slack p⟩⟩

/-- Settles O11: reset makes `PROGLEN + SLACK` cells, and a write to any of them succeeds. -/
theorem slackGuaranteesProgramPlus1000 : Obligations.SlackGuaranteesProgramPlus1000 := by
  unfold Obligations.SlackGuaranteesProgramPlus1000
  intro s slack p hslack
  have hb : ∀ a : Int, (s.load slack p).InBounds a ↔ 0 ≤ a ∧ a < (p.length : Int) + slack := fun a => by
    rw [State.InBounds, State.load_memLen, Nat.cast_add]
  refine ⟨fun a h0 h1 => ?guaranteed, fun a ha => ?beyond⟩
  case guaranteed =>
    have hin : (s.load slack p).InBounds a := (hb a).mpr (by omega)
    exact ⟨hin, fun v => ⟨_, State.memWrite_of_inBounds hin v⟩⟩
  case beyond =>
    rw [hb]
    omega

/-! #### The other acts -/

/-- With its CORE state, a state keeps the invariant, which is about CORE. -/
theorem State.Inv.of_coreView_eq {s t : State} (h : s.Inv) (hv : t.coreView = s.coreView) : t.Inv := by
  rw [State.eq_bindChannels_of_coreView_eq hv]
  exact h.congr rfl rfl rfl rfl rfl

theorem State.Readable.congr {s t : State} {k : Nat} {m : Mode} (h : s.Readable k m) (h1 : t.mem = s.mem)
    (h2 : t.memLen = s.memLen) (h3 : t.ip = s.ip) (h4 : t.rb = s.rb) : t.Readable k m := by
  unfold State.Readable State.InBounds at h ⊢
  rwa [operandIndex_congr h1 h3 h4, h2, h3]

/-- Other channels keep the account of how the run ended, if a closed, empty input is still that and a listener that is
gone is still gone. -/
theorem State.EndExplained.bindChannels {s : State} (h : s.EndExplained) {c : Channels}
    (hin : s.inQ = [] → s.inClosed = true → c.inQ = [] ∧ c.inClosed = true)
    (hout : s.outClosed = true → c.outClosed = true) : (s.bindChannels c).EndExplained := by
  have hfetch : (s.bindChannels c).fetchInstr = s.fetchInstr := fetchInstr_congr rfl rfl rfl
  unfold State.EndExplained at h ⊢
  rw [State.bindChannels_cause]
  cases hc : s.cause with
  | none => trivial
  | halt => rw [hc] at h; exact hfetch.trans h
  | inputClosed =>
    rw [hc] at h
    obtain ⟨m, hf, hw, hq, hcl⟩ := h
    obtain ⟨hq', hcl'⟩ := hin hq hcl
    exact ⟨m, hfetch.trans hf, hw.congr rfl rfl rfl rfl, hq', hcl'⟩
  | malformedProgram => rw [hc] at h; exact h
  | outOfBoundsAccess =>
    rw [hc] at h
    simp only [hfetch, firstBadIndex_bindChannels]
    exact h
  | outputChannelClosed =>
    rw [hc] at h
    obtain ⟨m, hf, hr, hi, ho⟩ := h
    exact ⟨m, hfetch.trans hf, hr.congr rfl rfl rfl rfl, hi.trans (operandValue_bindChannels s c 1 m).symm, hout ho⟩

/-! #### The channels after each act -/

theorem channels_reset (s : State) (slack : Nat) (p : List Word) : (s.hostAct slack (.reset p)).channels = s.channels :=
  rfl

theorem channels_append (s : State) (slack : Nat) (v : Word) :
    (s.hostAct slack (.append v)).channels =
      ⟨if s.inClosed then s.inQ else s.inQ ++ [v], s.inClosed, s.outQ, s.outClosed⟩ := by
  show (s.hostAppend v).channels = _
  rw [hostAppend_eq]
  rfl

theorem channels_closeInput (s : State) (slack : Nat) :
    (s.hostAct slack .closeInput).channels = ⟨s.inQ, true, s.outQ, s.outClosed⟩ := rfl

theorem channels_take (s : State) (slack : Nat) :
    (s.hostAct slack .take).channels =
      ⟨s.inQ, s.inClosed, if s.outClosed then s.outQ else s.outQ.tail, s.outClosed⟩ := by
  obtain ⟨_, _, _, _, _, _, _, _, _, _, outQ, outClosed⟩ := s
  cases outClosed with
  | true => rfl
  | false => cases outQ <;> rfl

theorem channels_dropListener (s : State) (slack : Nat) :
    (s.hostAct slack .dropListener).channels = ⟨s.inQ, s.inClosed, s.outQ, true⟩ := rfl

/-- A listener once gone stays gone, with `OutQ` left, as long as no other channels are bound (42_io.md R104; log 30). -/
theorem hostAct_of_outClosed {s : State} {slack : Nat} {a : HostAction} (hb : a.binds = none)
    (hc : s.outClosed = true) : (s.hostAct slack a).outClosed = true ∧ (s.hostAct slack a).outQ = s.outQ := by
  cases a with
  | reset p => exact ⟨hc, rfl⟩
  | startRun p c => cases hb
  | append v =>
    have h := channels_append s slack v
    exact ⟨(congrArg Channels.outClosed h).trans hc, congrArg Channels.outQ h⟩
  | closeInput => exact ⟨hc, rfl⟩
  | take =>
    have h := channels_take s slack
    exact ⟨(congrArg Channels.outClosed h).trans hc, (congrArg Channels.outQ h).trans (if_pos hc)⟩
  | dropListener => exact ⟨rfl, rfl⟩

theorem hostAct_outClosed_eq {s : State} {slack : Nat} {a : HostAction} (hb : a.binds = none)
    (ha : a ≠ .dropListener) : (s.hostAct slack a).outClosed = s.outClosed := by
  cases a with
  | reset p => rfl
  | startRun p c => cases hb
  | append v => exact congrArg Channels.outClosed (channels_append s slack v)
  | closeInput => rfl
  | take => exact congrArg Channels.outClosed (channels_take s slack)
  | dropListener => exact absurd rfl ha

/-- No act but a reset reopens a closed, empty input or brings a listener back. -/
theorem State.EndExplained.hostAct {s : State} (h : s.EndExplained) {slack : Nat} {a : HostAction}
    (hp : a.program = none) : (s.hostAct slack a).EndExplained := by
  rw [State.eq_bindChannels_of_coreView_eq (hostAct_coreView (s := s) (slack := slack) hp)]
  cases a with
  | reset p => cases hp
  | startRun p c => cases hp
  | append v =>
    rw [channels_append]
    exact h.bindChannels (fun hq hc => ⟨(if_pos hc).trans hq, hc⟩) id
  | closeInput => exact h.bindChannels (fun hq _ => ⟨hq, rfl⟩) id
  | take =>
    rw [channels_take]
    exact h.bindChannels And.intro id
  | dropListener => exact h.bindChannels And.intro fun _ => rfl

/-- A reset, with or without other channels, sets CORE as `State.load` does. -/
theorem hostAct_coreView_of_program {s : State} {slack : Nat} {a : HostAction} {p : List Word} (h : a.program = some p) :
    (s.hostAct slack a).coreView = (s.load slack p).coreView := by
  cases a <;> cases h <;> rfl

/-- Every act keeps both invariants, if the program it resets to fits. -/
theorem hostAct_invariants {s : State} {slack : Nat} {a : HostAction} (hinv : s.Inv) (he : s.EndExplained)
    (hfits : ∀ p, a.program = some p → p.length + slack ≤ 2 ^ 62) :
    (s.hostAct slack a).Inv ∧ (s.hostAct slack a).EndExplained := by
  cases hp : a.program with
  | none => exact ⟨hinv.of_coreView_eq (hostAct_coreView hp), he.hostAct hp⟩
  | some p =>
    have hload := hostAct_coreView_of_program (s := s) (slack := slack) hp
    exact ⟨(s.inv_load (hfits p hp)).of_coreView_eq hload,
      State.endExplained_of_cause_none (congrArg CoreView.cause hload)⟩

/-- Settles O45: the channels after each act are written out above, and a reset's CORE state is that of `State.load`. -/
theorem hostActionsChangeOnlyTheirPart : Obligations.HostActionsChangeOnlyTheirPart := by
  unfold Obligations.HostActionsChangeOnlyTheirPart
  intro s slack a
  refine ⟨hostAct_invariants, hostAct_coreView, fun p hp => hostAct_coreView_of_program hp, fun c hb => ?_,
    hostAct_of_outClosed, hostAct_outClosed_eq, ?_, ?_, ?_, ?_, ?_⟩
  · cases a <;> cases hb; rfl
  · rintro v rfl; exact channels_append s slack v
  · rintro rfl; exact channels_closeInput s slack
  · rintro rfl; exact channels_take s slack
  · rintro rfl; exact channels_dropListener s slack
  · rintro p rfl; exact channels_reset s slack p

/-! #### First in, first out (42_io.md section 1) -/

theorem hostAppend_of_open {s : State} (h : s.inClosed = false) (v : Word) :
    s.hostAppend v = { s with inQ := s.inQ ++ [v] } := by
  simp [State.hostAppend, h]

theorem inQ_foldl_hostAppend : ∀ {vs : List Word} {s : State}, s.inClosed = false →
    (vs.foldl State.hostAppend s).inQ = s.inQ ++ vs
  | [], s, _ => (List.append_nil s.inQ).symm
  | v :: vs, s, h => by
    rw [List.foldl_cons, hostAppend_of_open h]
    have ih := inQ_foldl_hostAppend (vs := vs) (s := { s with inQ := s.inQ ++ [v] }) h
    rw [ih, List.append_assoc, List.singleton_append]

theorem outSend_of_listener {s : State} (h : s.outClosed = false) (v : Word) :
    s.outSend v = some { s with outQ := s.outQ ++ [v] } := by
  simp [State.outSend, h]

theorem foldlM_outSend : ∀ {vs : List Word} {s : State}, s.outClosed = false →
    ∃ t, vs.foldlM State.outSend s = some t ∧ t.outQ = s.outQ ++ vs
  | [], s, _ => ⟨s, rfl, (List.append_nil s.outQ).symm⟩
  | v :: vs, s, h => by
    obtain ⟨t, ht, hq⟩ := foldlM_outSend (vs := vs) (s := { s with outQ := s.outQ ++ [v] }) h
    refine ⟨t, ?_, by rw [hq, List.append_assoc, List.singleton_append]⟩
    rw [List.foldlM_cons, outSend_of_listener h]
    exact ht

theorem hostTake_of_cons {s : State} {v : Word} {rest : List Word} (h : s.outClosed = false) (hq : s.outQ = v :: rest) :
    s.hostTake = some (v, { s with outQ := rest }) := by
  simp [State.hostTake, h, hq]

/-- Settles O57: appends go to the tail by induction over the values, and both ends take the head. -/
theorem channelsAreFifo : Obligations.ChannelsAreFifo := by
  unfold Obligations.ChannelsAreFifo
  exact ⟨fun _ _ => inQ_foldl_hostAppend, fun _ _ rest hq => ⟨inPoll_eq_value_iff.mpr ⟨rest, hq⟩, congrArg List.tail hq⟩,
    fun _ _ => foldlM_outSend, fun _ _ _ h hq => ⟨_, hostTake_of_cons h hq, rfl⟩⟩

end Sys2Proof.Machine

/-! ### The decimal digits of an instruction word (30_encoding.md R50 to R61) -/

namespace Sys2Proof

/-! #### Digits and numbers determine modes and opcodes -/

theorem Mode.ofDigit_eq_some_iff {n : Nat} {m : Mode} : Mode.ofDigit n = some m ↔ m.digit = n :=
  ⟨Mode.digit_of_ofDigit, fun h => h ▸ Mode.ofDigit_digit m⟩

theorem Mode.digit_injective {m m' : Mode} (h : m.digit = m'.digit) : m = m' :=
  Option.some.inj <| by rw [← Mode.ofDigit_digit m, h, Mode.ofDigit_digit]

theorem OpcodeMap.numberOf_lt {map : OpcodeMap} (h : map.wf = true) (op : Opcode) : map.numberOf op < 100 :=
  (map.wf_iff.mp h op).1

theorem OpcodeMap.opcodeOf_numberOf {map : OpcodeMap} (h : map.wf = true) (op : Opcode) :
    map.opcodeOf (map.numberOf op) = some op :=
  (map.wf_iff.mp h op).2

theorem OpcodeMap.numberOf_injective {map : OpcodeMap} (h : map.wf = true) {op op' : Opcode}
    (he : map.numberOf op = map.numberOf op') : op = op' :=
  Option.some.inj <| by rw [← OpcodeMap.opcodeOf_numberOf h op, he, OpcodeMap.opcodeOf_numberOf h]

theorem opcodeMap_opcodeOf_eq_some_iff {n : Nat} {op : Opcode} :
    opcodeMap.opcodeOf n = some op ↔ opcodeMap.numberOf op = n :=
  ⟨opcodeMap_numberOf, fun h => h ▸ OpcodeMap.opcodeOf_numberOf opcodeMap_wf op⟩

/-- What the decoder accepts, by the digits themselves. -/
theorem decodeFields_ok_iff_digits {w : Word} {d : Decoded} :
    decodeFields opcodeMap w = .ok d ↔
      0 ≤ w.toInt ∧ opcodeMap.numberOf d.op = w.toNat % 100 ∧ d.mode1.digit = w.toNat / 100 % 10 ∧
        d.mode2.digit = w.toNat / 1000 % 10 ∧ d.mode3.digit = w.toNat / 10000 % 10 ∧
        d.destination ≠ some .immediate := by
  simp only [decodeFields_ok_iff, opcodeMap_opcodeOf_eq_some_iff, Mode.ofDigit_eq_some_iff, digit_two, digit_three,
    digit_four]

/-! #### The word of decoded fields, under an opcode map -/

/-- The five-digit word of decoded fields (30_encoding.md R65); `Instr.decoded_word` ties it to the encoder. -/
def Decoded.word (d : Decoded) (map : OpcodeMap) : Nat :=
  wordOf (map.numberOf d.op) d.mode1.digit d.mode2.digit d.mode3.digit

/-- The fields the encoder writes. -/
def Instr.decoded (i : Instr) : Decoded :=
  ⟨i.opcode, i.modes.1, i.modes.2.1, i.modes.2.2⟩

/-- The four fields of a word are its opcode number and its mode digits, whatever stands above them. -/
theorem Decoded.word_fields {map : OpcodeMap} (h : map.wf = true) (d : Decoded) (high : Nat) :
    (d.word map + 100000 * high) % 100 = map.numberOf d.op ∧ digit (d.word map + 100000 * high) 2 = d.mode1.digit ∧
      digit (d.word map + 100000 * high) 3 = d.mode2.digit ∧ digit (d.word map + 100000 * high) 4 = d.mode3.digit :=
  have small : ∀ m : Mode, m.digit < 10 := fun m => m.digit_le.trans_lt (by decide)
  wordOf_fields high (OpcodeMap.numberOf_lt h d.op) (small _) (small _) (small _)

theorem Decoded.word_lt {map : OpcodeMap} (h : map.wf = true) (d : Decoded) : d.word map < 100000 := by
  have hop := OpcodeMap.numberOf_lt h d.op
  have h1 := d.mode1.digit_le
  have h2 := d.mode2.digit_le
  have h3 := d.mode3.digit_le
  unfold Decoded.word wordOf
  omega

theorem Decoded.word_injective {map : OpcodeMap} (h : map.wf = true) {d d' : Decoded} (he : d.word map = d'.word map) :
    d = d' := by
  obtain ⟨hop, h1, h2, h3⟩ := d.word_fields h 0
  obtain ⟨hop', h1', h2', h3'⟩ := d'.word_fields h 0
  rw [he] at hop h1 h2 h3
  cases d; cases d'
  cases OpcodeMap.numberOf_injective h (hop.symm.trans hop')
  cases Mode.digit_injective (h1.symm.trans h1')
  cases Mode.digit_injective (h2.symm.trans h2')
  cases Mode.digit_injective (h3.symm.trans h3')
  rfl

theorem Instr.decoded_word {map : OpcodeMap} (h : map.wf = true) (i : Instr) :
    (encodeWith map i).toNat = i.decoded.word map := by
  have hlt := i.decoded.word_lt h
  calc (encodeWith map i).toNat
    _ = i.decoded.word map % 2 ^ 64 := BitVec.toNat_ofNat _ 64
    _ = i.decoded.word map := Nat.mod_eq_of_lt (by omega)

/-- A number below 2^63 is the cell of that number, read unsigned or signed. -/
theorem word_ofNat_of_lt {n : Nat} (h : n < 2 ^ 63) :
    (BitVec.ofNat 64 n).toNat = n ∧ 0 ≤ (BitVec.ofNat 64 n).toInt := by
  have hn : (BitVec.ofNat 64 n).toNat = n := (BitVec.toNat_ofNat n 64).trans (Nat.mod_eq_of_lt (by omega))
  refine ⟨hn, ?_⟩
  rw [BitVec.toInt_eq_toNat_cond, if_pos (by omega)]
  exact Int.natCast_nonneg _

/-- The decoder reads the fields of a word back, and no digit above them (30_encoding.md R60). -/
theorem decodeFields_of_word {map : OpcodeMap} (h : map.wf = true) {d : Decoded} (hd : d.destination ≠ some .immediate)
    {w : Word} (h0 : 0 ≤ w.toInt) {high : Nat} (hw : w.toNat = d.word map + 100000 * high) :
    decodeFields map w = .ok d := by
  obtain ⟨hop, h1, h2, h3⟩ := d.word_fields h high
  rw [decodeFields_ok_iff, hw, hop, h1, h2, h3]
  exact ⟨h0, OpcodeMap.opcodeOf_numberOf h d.op, Mode.ofDigit_digit _, Mode.ofDigit_digit _, Mode.ofDigit_digit _, hd⟩

/-- Settles O2: the word an instruction is encoded to is that of its fields, and the decoder reads these back. -/
theorem decodeEncodeRoundTrip : Obligations.DecodeEncodeRoundTrip := by
  unfold Obligations.DecodeEncodeRoundTrip
  intro map i high hmap hi hlt
  obtain ⟨hnat, h0⟩ := word_ofNat_of_lt hlt
  have hinstr : i.decoded.instr = i := i.rebuild
  have hd : i.decoded.destination ≠ some .immediate := by
    rw [← Decoded.instr_destination, hinstr]
    exact Instr.wf_destination hi
  refine decodeWith_ok_iff.mpr ⟨i.decoded, decodeFields_of_word hmap hd h0 (high := high) ?_, hinstr⟩
  rw [hnat, Instr.decoded_word hmap]

/-! #### Which words decode -/

/-- A word decodes to fields exactly when it is their word, up to digits from the `10^5` place on. -/
theorem decodeFields_ok_iff_word {w : Word} {d : Decoded} :
    decodeFields opcodeMap w = .ok d ↔
      0 ≤ w.toInt ∧ d.destination ≠ some .immediate ∧ ∃ high, w.toNat = d.word opcodeMap + 100000 * high := by
  constructor
  · intro h
    obtain ⟨h0, hop, h1, h2, h3, hd⟩ := decodeFields_ok_iff_digits.mp h
    refine ⟨h0, hd, w.toNat / 100000, ?_⟩
    unfold Decoded.word wordOf
    omega
  · rintro ⟨h0, hd, high, hw⟩
    exact decodeFields_of_word opcodeMap_wf hd h0 hw

/-- Settles O3: the digits of the statement are those of `Decoded.word`. -/
theorem decodeReadsDigitFields : Obligations.DecodeReadsDigitFields := by
  unfold Obligations.DecodeReadsDigitFields
  intro w i
  constructor
  · intro h
    obtain ⟨d, hd, rfl⟩ := decodeWith_ok_iff.mp h
    obtain ⟨h0, himm, high, hw⟩ := decodeFields_ok_iff_word.mp hd
    exact ⟨h0, d.op, d.mode1, d.mode2, d.mode3, high, hw, rfl, d.instr_destination ▸ himm⟩
  · rintro ⟨h0, op, a, b, c, high, hw, rfl, himm⟩
    rw [Decoded.instr_destination] at himm
    exact decodeWith_ok_iff.mpr ⟨_, decodeFields_ok_iff_word.mpr ⟨h0, himm, high, hw⟩, rfl⟩

/-- Settles O6: a decoded word is not negative, so its signed and unsigned readings agree. -/
theorem opcodeIsWordMod100 : Obligations.OpcodeIsWordMod100 := by
  unfold Obligations.OpcodeIsWordMod100
  intro w i h
  obtain ⟨d, hd, rfl⟩ := decodeWith_ok_iff.mp h
  obtain ⟨h0, hop, -⟩ := decodeFields_ok_iff_digits.mp hd
  refine ⟨h0, ?_⟩
  rw [Decoded.instr_opcode, hop, Machine.word_toInt_eq_toNat h0, Int.natCast_mod, Nat.cast_ofNat]

/-- Only the sign and the five low digits are read. -/
theorem decodeFields_congr {map : OpcodeMap} {v w : Word} (hv : 0 ≤ v.toInt) (hw : 0 ≤ w.toInt)
    (h : v.toNat % 100000 = w.toNat % 100000) : decodeFields map v = decodeFields map w := by
  have hop : v.toNat % 100 = w.toNat % 100 := by omega
  have h1 : digit v.toNat 2 = digit w.toNat 2 := by rw [digit_two, digit_two]; omega
  have h2 : digit v.toNat 3 = digit w.toNat 3 := by rw [digit_three, digit_three]; omega
  have h3 : digit v.toNat 4 = digit w.toNat 4 := by rw [digit_four, digit_four]; omega
  unfold decodeFields
  rw [if_neg (by omega), if_neg (by omega), hop, h1, h2, h3]

/-- Settles O7: words that agree modulo 100000 have the same five low digits. -/
theorem highDigitsAreNotRead : Obligations.HighDigitsAreNotRead := by
  unfold Obligations.HighDigitsAreNotRead
  intro v w hv hw h
  rw [Machine.word_toInt_eq_toNat hv, Machine.word_toInt_eq_toNat hw] at h
  unfold decode decodeWith
  rw [decodeFields_congr hv hw (by omega)]

/-- Settles O1: each word is run through the decoder. -/
theorem sampleWordsDecode : Obligations.SampleWordsDecode := by
  unfold Obligations.SampleWordsDecode
  exact ⟨rfl, rfl, rfl, rfl, rfl, rfl, rfl, rfl, rfl, rfl, rfl, rfl, ⟨_, rfl⟩, ⟨_, rfl⟩, ⟨_, rfl⟩, ⟨_, rfl⟩⟩

/-! #### Which words are malformed -/

theorem decode_error_iff {w : Word} : (∃ e, decode w = .error e) ↔ ¬ ∃ d, decodeFields opcodeMap w = .ok d := by
  unfold decode decodeWith
  cases decodeFields opcodeMap w <;> simp

theorem opcodeMap_exists_numberOf {n : Nat} (h : 1 ≤ n ∧ n ≤ 9 ∨ n = 99) : ∃ op, opcodeMap.numberOf op = n := by
  obtain ⟨h1, h9⟩ | rfl := h
  · interval_cases n
    exacts [⟨.add, rfl⟩, ⟨.multiply, rfl⟩, ⟨.input, rfl⟩, ⟨.output, rfl⟩, ⟨.jumpIfTrue, rfl⟩, ⟨.jumpIfFalse, rfl⟩,
      ⟨.lessThan, rfl⟩, ⟨.equals, rfl⟩, ⟨.adjustRelativeBase, rfl⟩]
  · exact ⟨.halt, rfl⟩

theorem opcodeMap_numberOf_range (op : Opcode) :
    1 ≤ opcodeMap.numberOf op ∧ opcodeMap.numberOf op ≤ 9 ∨ opcodeMap.numberOf op = 99 := by
  cases op <;> decide

theorem Mode.exists_digit {n : Nat} (h : n ≤ 2) : ∃ m : Mode, m.digit = n := by
  cases hm : Mode.ofDigit n with
  | none => exact absurd (Mode.ofDigit_eq_none_iff.mp hm) (by omega)
  | some m => exact ⟨m, Mode.digit_of_ofDigit hm⟩

theorem Mode.digit_eq_one_iff {m : Mode} : m.digit = 1 ↔ m = .immediate := by
  cases m <;> decide

/-- An Immediate destination in digits: the third mode digit of opcodes 1, 2, 7 and 8, the first of opcode 3. -/
theorem Decoded.destination_eq_immediate_iff (d : Decoded) :
    d.destination = some .immediate ↔
      (opcodeMap.numberOf d.op ∈ [1, 2, 7, 8] ∧ d.mode3.digit = 1) ∨
        (opcodeMap.numberOf d.op = 3 ∧ d.mode1.digit = 1) := by
  obtain ⟨op, a, b, c⟩ := d
  rw [Mode.digit_eq_one_iff, Mode.digit_eq_one_iff]
  cases op <;> simp [Decoded.destination, Opcode.format, opcodeMap, OpcodeMap.numberOf]

/-- Settles O4: the words listed are those whose digits are the fields of no decoded word. -/
theorem malformedWordsExactly : Obligations.MalformedWordsExactly := by
  unfold Obligations.MalformedWordsExactly
  intro w
  simp only [decode_error_iff, decodeFields_ok_iff_digits, ne_eq, Decoded.destination_eq_immediate_iff]
  constructor
  · intro hnone
    by_contra hbad
    simp only [not_or] at hbad
    obtain ⟨h0, hzero, hgap, h1, h2, h3, hrrw, hin⟩ := hbad
    obtain ⟨op, hop⟩ := opcodeMap_exists_numberOf (n := w.toNat % 100) (by omega)
    obtain ⟨a, ha⟩ := Mode.exists_digit (Nat.le_of_not_lt h1)
    obtain ⟨b, hb⟩ := Mode.exists_digit (Nat.le_of_not_lt h2)
    obtain ⟨c, hc⟩ := Mode.exists_digit (Nat.le_of_not_lt h3)
    refine hnone ⟨⟨op, a, b, c⟩, by omega, hop, ha, hb, hc, ?_⟩
    rw [hop, ha, hc]
    exact not_or.mpr ⟨hrrw, hin⟩
  · rintro hbad ⟨d, h0, hop, h1, h2, h3, hd⟩
    have hrange := opcodeMap_numberOf_range d.op
    have hm1 := d.mode1.digit_le
    have hm2 := d.mode2.digit_le
    have hm3 := d.mode3.digit_le
    rw [hop] at hrange hd
    rw [h1, h3] at hd
    obtain ⟨hrrw, hin⟩ := not_or.mp hd
    simp only [hrrw, hin, or_false] at hbad
    omega

/-! #### The legal words below 100000 -/

/-- Every mode, once. -/
def Mode.all : List Mode :=
  [.position, .immediate, .relative]

/-- Every choice of fields, once. -/
def Decoded.all : List Decoded :=
  (Opcode.all ×ˢ Mode.all ×ˢ Mode.all ×ˢ Mode.all).map fun f => ⟨f.1, f.2.1, f.2.2.1, f.2.2.2⟩

theorem Decoded.mem_all (d : Decoded) : d ∈ Decoded.all := by
  obtain ⟨op, a, b, c⟩ := d
  have hop : op ∈ Opcode.all := by cases op <;> decide
  have hmode : ∀ m : Mode, m ∈ Mode.all := fun m => by cases m <;> decide
  refine List.mem_map.mpr ⟨(op, a, b, c), ?_, rfl⟩
  simp only [List.mem_product]
  exact ⟨hop, hmode a, hmode b, hmode c⟩

theorem Decoded.nodup_all : Decoded.all.Nodup := by
  have hop : Opcode.all.Nodup := by decide
  have hmode : Mode.all.Nodup := by decide
  refine List.Nodup.map ?_ (hop.product (hmode.product (hmode.product hmode)))
  rintro ⟨op, a, b, c⟩ ⟨op', a', b', c'⟩ h
  cases h
  rfl

/-- The words of all fields without an Immediate destination (30_encoding.md R61). -/
def legalWords : List Nat :=
  (Decoded.all.filter fun d => d.destination ≠ some .immediate).map (Decoded.word · opcodeMap)

theorem mem_legalWords_iff {w : Nat} :
    w ∈ legalWords ↔ ∃ d : Decoded, d.destination ≠ some .immediate ∧ d.word opcodeMap = w := by
  simp [legalWords, Decoded.mem_all]

theorem nodup_legalWords : legalWords.Nodup :=
  (Decoded.nodup_all.filter _).map fun _ _ => Decoded.word_injective opcodeMap_wf

theorem length_legalWords : legalWords.length = 225 := by
  rw [legalWords, List.length_map]
  rfl

/-- Settles O5: the list of the words of all legal fields, which differ because their digits do. -/
theorem legalWordsBelow100000Are225 : Obligations.LegalWordsBelow100000Are225 := by
  unfold Obligations.LegalWordsBelow100000Are225
  refine ⟨legalWords, length_legalWords, nodup_legalWords, fun w => ?_⟩
  rw [mem_legalWords_iff]
  constructor
  · rintro ⟨d, hd, rfl⟩
    have hlt := d.word_lt opcodeMap_wf
    obtain ⟨hnat, h0⟩ := word_ofNat_of_lt (n := d.word opcodeMap) (by omega)
    exact ⟨hlt, d.instr, decodeWith_ok_iff.mpr ⟨d, decodeFields_ok_iff_word.mpr ⟨h0, hd, 0, hnat⟩, rfl⟩⟩
  · rintro ⟨hlt, i, hi⟩
    obtain ⟨d, hd, -⟩ := decodeWith_ok_iff.mp hi
    obtain ⟨-, himm, high, hw⟩ := decodeFields_ok_iff_word.mp hd
    rw [(word_ofNat_of_lt (by omega)).1] at hw
    exact ⟨d, himm, by omega⟩

end Sys2Proof

/-! ### Memory has one canonical form (20_memory.md section 7; log 4) -/

namespace Sys2Proof.Machine

theorem Memory.read_cons_of_gt {i j : Nat} {v : Word} {m : Memory} (h : i < j) :
    Memory.read ((i, v) :: m) j = m.read j :=
  if_neg h.ne'

theorem Memory.read_cons_self {i : Nat} {v : Word} {m : Memory} : Memory.read ((i, v) :: m) i = v :=
  if_pos rfl

/-- A memory whose first listed cell is above another's reads 0 there, where the other does not. -/
theorem Memory.read_ne_of_lt {i : Nat} {v : Word} {m n : Memory} (hm : Memory.wfFrom i ((i, v) :: m) = true)
    {lo : Nat} (hn : n.wfFrom lo = true) (h : i < lo) : Memory.read ((i, v) :: m) i ≠ n.read i := by
  rw [Memory.read_cons_self, Memory.read_of_lt hn h]
  exact (Memory.wfFrom_cons.mp hm).2.1

theorem Memory.eq_of_read_eq : ∀ {m n : Memory} {lo : Nat}, m.wfFrom lo = true → n.wfFrom lo = true →
    (∀ i, m.read i = n.read i) → m = n
  | [], [], _, _, _, _ => rfl
  | [], (j, w) :: n, _, _, hn, h => by
    obtain ⟨-, hw, -⟩ := Memory.wfFrom_cons.mp hn
    exact absurd ((h j).trans Memory.read_cons_self).symm hw
  | (i, v) :: m, [], _, hm, _, h => by
    obtain ⟨-, hv, -⟩ := Memory.wfFrom_cons.mp hm
    exact absurd (Memory.read_cons_self.symm.trans (h i)) hv
  | (i, v) :: m, (j, w) :: n, _, hm, hn, h => by
    obtain ⟨-, hv, hm'⟩ := Memory.wfFrom_cons.mp hm
    obtain ⟨-, hw, hn'⟩ := Memory.wfFrom_cons.mp hn
    have hfromi : Memory.wfFrom i ((i, v) :: m) = true := Memory.wfFrom_cons.mpr ⟨le_rfl, hv, hm'⟩
    have hfromj : Memory.wfFrom j ((j, w) :: n) = true := Memory.wfFrom_cons.mpr ⟨le_rfl, hw, hn'⟩
    obtain hlt | rfl | hlt := lt_trichotomy i j
    · exact absurd (h i) (Memory.read_ne_of_lt hfromi hfromj hlt)
    · have hvw : v = w := Memory.read_cons_self.symm.trans ((h i).trans Memory.read_cons_self)
      have htail : ∀ k, Memory.read m k = Memory.read n k := fun k => by
        obtain hk | hk := Nat.lt_or_ge i k
        · exact (Memory.read_cons_of_gt hk).symm.trans ((h k).trans (Memory.read_cons_of_gt hk))
        · rw [Memory.read_of_lt hm' (Nat.lt_succ_of_le hk), Memory.read_of_lt hn' (Nat.lt_succ_of_le hk)]
      rw [hvw, Memory.eq_of_read_eq hm' hn' htail]
    · exact absurd (h j).symm (Memory.read_ne_of_lt hfromj hfromi hlt)

/-- Settles O10: by induction on both lists, whose first cells are the first that do not read 0. -/
theorem equalReadsGiveEqualMemories : Obligations.EqualReadsGiveEqualMemories := by
  unfold Obligations.EqualReadsGiveEqualMemories
  exact fun _ _ => Memory.eq_of_read_eq

end Sys2Proof.Machine

/-! ### Machines in a ring (60_exceptions.md section 7; log 27) -/

namespace Sys2Proof.Machine

/-! #### The places of a ring -/

theorem succ_mod_lt {i l : Nat} (h : i < l) : (i + 1) % l < l :=
  Nat.mod_lt _ (by omega)

theorem succ_mod_injective {i k l : Nat} (hi : i < l) (hk : k < l) (h : (i + 1) % l = (k + 1) % l) : i = k :=
  (Nat.ModEq.add_right_cancel' 1 h).eq_of_lt_of_lt hi hk

theorem succ_mod_ne_self {i l : Nat} (hl : 2 ≤ l) (hi : i < l) : (i + 1) % l ≠ i := by
  obtain h | h := Nat.lt_or_eq_of_le (Nat.succ_le_of_lt hi)
  · rw [Nat.mod_eq_of_lt h]; omega
  · rw [show i + 1 = l from h, Nat.mod_self]; omega

/-- Every place of a ring comes after one. -/
theorem exists_succ_mod_eq {k l : Nat} (h : k < l) : ∃ i, i < l ∧ (i + 1) % l = k := by
  cases k with
  | zero => exact ⟨l - 1, by omega, by rw [Nat.sub_add_cancel (by omega), Nat.mod_self]⟩
  | succ i => exact ⟨i, by omega, Nat.mod_eq_of_lt h⟩

/-! #### The ring invariant, machine by machine and edge by edge -/

/-- What the ring invariant says of one machine: drained, and its input closed exactly when no sender is left. -/
def Node.Settled (n : Node) : Prop :=
  n.core.outQ = [] ∧ n.core.inClosed = (n.upstreamEnded && !n.hostSends)

theorem Network.inv_iff {net : Network} :
    net.Inv ↔ (∀ (i : Nat) (n : Node), net[i]? = some n → n.Settled) ∧
      ∀ (i : Nat) (n d : Node), net[i]? = some n → net[(i + 1) % net.length]? = some d →
        d.upstreamEnded = n.core.ended := by
  constructor
  · intro h
    refine ⟨fun k x hx => ⟨?drained, ?closed⟩, fun i n d hn hd => (h i n d hn hd).2.1⟩
    case drained =>
      have hk := (List.getElem?_eq_some_iff.mp hx).1
      exact (h k x _ hx (List.getElem?_eq_getElem (succ_mod_lt hk))).1
    case closed =>
      obtain ⟨i, hi, hsucc⟩ := exists_succ_mod_eq (List.getElem?_eq_some_iff.mp hx).1
      exact (h i _ x (List.getElem?_eq_getElem hi) (hsucc ▸ hx)).2.2
  · rintro ⟨hnode, hedge⟩ i n d hn hd
    exact ⟨(hnode i n hn).1, hedge i n d hn hd, (hnode _ d hd).2⟩

/-- An act on one machine keeps the ring invariant if it keeps that machine's part and what its neighbours know. -/
theorem Network.Inv.modify {net : Network} (h : net.Inv) (i : Nat) {f : Node → Node}
    (hf : ∀ n, n.Settled → (f n).Settled) (hu : ∀ n, (f n).upstreamEnded = n.upstreamEnded)
    (he : ∀ n, (f n).core.ended = n.core.ended) : Network.Inv (List.modify net i f) := by
  obtain ⟨hnode, hedge⟩ := Network.inv_iff.mp h
  have old : ∀ {k : Nat} {x : Node}, (List.modify net i f)[k]? = some x →
      ∃ y, net[k]? = some y ∧ (x = f y ∨ x = y) := fun {k x} hx => by
    rw [List.getElem?_modify] at hx
    obtain ⟨y, hy, rfl⟩ := Option.map_eq_some_iff.mp hx
    exact ⟨y, hy, ite_eq_or_eq (i = k) (f y) y⟩
  refine Network.inv_iff.mpr ⟨fun k x hx => ?_, fun k x x' hx hx' => ?_⟩
  · obtain ⟨y, hy, rfl | rfl⟩ := old hx
    · exact hf y (hnode k y hy)
    · exact hnode k x hy
  · rw [List.length_modify] at hx'
    obtain ⟨y, hy, hxy⟩ := old hx
    obtain ⟨y', hy', hxy'⟩ := old hx'
    have hended : x.core.ended = y.core.ended := by rcases hxy with rfl | rfl; exacts [he y, rfl]
    have hup : x'.upstreamEnded = y'.upstreamEnded := by rcases hxy' with rfl | rfl; exacts [hu y', rfl]
    rw [hended, hup, hedge k y y' hy hy']

/-! #### The host's acts on a ring -/

theorem ended_eq_false_iff {s : State} : s.ended = false ↔ s.status = .running := by
  simp [State.ended]

theorem Network.Inv.prime {net : Network} (h : net.Inv) (i : Nat) (v : Word) : (net.prime i v).Inv := by
  refine h.modify i (fun n hn => ?_) (fun n => ?_) fun n => ?_
  · split
    · rw [hostAppend_eq]; exact hn
    · exact hn
  · split <;> rfl
  · split
    · rw [hostAppend_eq]; rfl
    · rfl

/-- Settling sets the closed flag to what it should be, if it was right before another sender left. -/
theorem closedFlag_settle_eq (closed up hostSends : Bool) (h : closed = true → up = true ∧ hostSends = false) :
    (closed || (up && !hostSends)) = (up && !hostSends) := by
  cases closed
  · exact Bool.false_or _
  · obtain ⟨rfl, rfl⟩ := h rfl
    rfl

theorem Node.Settled.of_inClosed {n : Node} (h : n.Settled) (hc : n.core.inClosed = true) :
    n.upstreamEnded = true ∧ n.hostSends = false := by
  simpa [hc] using h.2.symm

theorem Network.Inv.dropPrimer {net : Network} (h : net.Inv) (i : Nat) : (net.dropPrimer i).Inv :=
  h.modify i (fun n hn => ⟨hn.1, closedFlag_settle_eq _ n.upstreamEnded false fun hc => ⟨(hn.of_inClosed hc).1, rfl⟩⟩)
    (fun _ => rfl) fun _ => rfl

theorem Network.Inv.dropListener {net : Network} (h : net.Inv) (i : Nat) : (net.dropListener i).Inv :=
  h.modify i (fun _ hn => hn) (fun _ => rfl) fun _ => rfl

theorem Network.inv_build (slack : Nat) (programs : List (List Word)) : (Network.build slack programs).Inv := by
  have fresh : ∀ {k : Nat} {x : Node}, (Network.build slack programs)[k]? = some x →
      ∃ p, x = ⟨State.reset.load slack p, true, false⟩ := fun {k x} hx => by
    obtain ⟨p, -, rfl⟩ := List.mem_map.mp (List.mem_of_getElem? hx)
    exact ⟨p, rfl⟩
  refine Network.inv_iff.mpr ⟨fun k x hx => ?_, fun k x x' hx hx' => ?_⟩
  · obtain ⟨p, rfl⟩ := fresh hx
    exact ⟨rfl, rfl⟩
  · obtain ⟨p, rfl⟩ := fresh hx
    obtain ⟨p', rfl⟩ := fresh hx'
    rfl

/-! #### A step of machine `i`, place by place -/

/-- The machine that stepped: what it sent has been handed on. -/
def Node.stepped (n : Node) (t : State) : Node :=
  { n with core := { t with outQ := [] } }

/-- What a step of machine `i` to `t` makes of the machine `y` at place `k`, before anything is delivered. -/
def Node.afterOwnStep (i : Nat) (t : State) (k : Nat) (y : Node) : Node :=
  if i = k then y.stepped t else y

/-- The same with the delivery to machine `j`; in a ring of one, `i` is its own downstream machine. -/
def Node.afterStep (i j : Nat) (t : State) (k : Nat) (y : Node) : Node :=
  if j = k then (y.afterOwnStep i t k).receive t.outQ t.ended else y.afterOwnStep i t k

theorem Network.stepAt_eq {net : Network} {map : OpcodeMap} {i : Nat} {n : Node} {t : State}
    (hn : net[i]? = some n) (ht : stepWith map n.core = .next t) :
    net.stepAt map i =
      (List.modify net i (·.stepped t)).modify ((i + 1) % net.length) (·.receive t.outQ t.ended) := by
  have hset : List.modify net i (·.stepped t) = net.set i (n.stepped t) := by
    rw [List.modify_eq_set_getElem?, hn]
    rfl
  rw [hset]
  simp only [Network.stepAt, hn, ht, Node.stepped]

theorem Network.getElem?_stepAt {net : Network} {map : OpcodeMap} {i : Nat} {n : Node} {t : State}
    (hn : net[i]? = some n) (ht : stepWith map n.core = .next t) (k : Nat) :
    (net.stepAt map i)[k]? = net[k]?.map (Node.afterStep i ((i + 1) % net.length) t k) := by
  rw [Network.stepAt_eq hn ht, List.getElem?_modify, List.getElem?_modify]
  exact Option.map_map _ _ _

theorem Network.length_stepAt {net : Network} {map : OpcodeMap} {i : Nat} {n : Node} {t : State}
    (hn : net[i]? = some n) (ht : stepWith map n.core = .next t) : (net.stepAt map i).length = net.length := by
  rw [Network.stepAt_eq hn ht, List.length_modify, List.length_modify]

/-- A delivery does not touch the status, so only the machine that stepped can have ended. -/
theorem Node.ended_afterStep (i j : Nat) (t : State) (k : Nat) (y : Node) :
    (y.afterStep i j t k).core.ended = if i = k then t.ended else y.core.ended := by
  have hown : (y.afterOwnStep i t k).core.ended = if i = k then t.ended else y.core.ended :=
    apply_ite (fun n : Node => n.core.ended) _ _ _
  unfold Node.afterStep
  split
  · exact hown
  · exact hown

/-- What a machine knows of its upstream machine changes by a delivery only. -/
theorem Node.upstreamEnded_afterStep (i j : Nat) (t : State) (k : Nat) (y : Node) :
    (y.afterStep i j t k).upstreamEnded = if j = k then y.upstreamEnded || t.ended else y.upstreamEnded := by
  have hown : (y.afterOwnStep i t k).upstreamEnded = y.upstreamEnded := by
    unfold Node.afterOwnStep
    split <;> rfl
  unfold Node.afterStep
  split
  · exact congrArg (· || t.ended) hown
  · exact hown

/-! #### A step keeps the ring invariant -/

/-- A run that has ended does not step. -/
theorem eq_of_ended {map : OpcodeMap} {s t : State} (h : stepWith map s = .next t) (hs : s.ended = true) : t = s := by
  have hn : s.status ≠ .running := by simpa [State.ended] using hs
  exact (Host.Outcome.next.inj ((stepWith_of_not_running hn).symm.trans h)).symm

theorem Node.Settled.stepped {n : Node} (h : n.Settled) {map : OpcodeMap} {t : State}
    (ht : stepWith map n.core = .next t) : (n.stepped t).Settled :=
  ⟨rfl, (stepWith_inClosed ht).trans h.2⟩

theorem Node.Settled.receive {n : Node} (h : n.Settled) (sent : List Word) (ended : Bool) :
    (n.receive sent ended).Settled := by
  refine ⟨h.1, closedFlag_settle_eq _ (n.upstreamEnded || ended) n.hostSends fun hc => ?_⟩
  obtain ⟨hup, hhost⟩ := h.of_inClosed hc
  exact ⟨by rw [hup, Bool.true_or], hhost⟩

theorem Node.Settled.afterStep {y : Node} (h : y.Settled) {map : OpcodeMap} {t : State} {i k : Nat} (j : Nat)
    (ht : i = k → stepWith map y.core = .next t) : (y.afterStep i j t k).Settled := by
  have hown : (y.afterOwnStep i t k).Settled := by
    unfold Node.afterOwnStep
    split
    · exact h.stepped (ht ‹_›)
    · exact h
  unfold Node.afterStep
  split
  · exact hown.receive _ _
  · exact hown

theorem Network.Inv.stepAt {net : Network} (h : net.Inv) (map : OpcodeMap) (i : Nat) : (net.stepAt map i).Inv := by
  cases hn : net[i]? with
  | none => simpa only [Network.stepAt, hn] using h
  | some n =>
    obtain ⟨t, ht⟩ := stepWith_next map n.core
    obtain ⟨hnode, hedge⟩ := Network.inv_iff.mp h
    refine Network.inv_iff.mpr ⟨fun k x hx => ?node, fun k x x' hx hx' => ?edge⟩
    case node =>
      rw [Network.getElem?_stepAt hn ht] at hx
      obtain ⟨y, hy, rfl⟩ := Option.map_eq_some_iff.mp hx
      refine (hnode k y hy).afterStep (map := map) _ fun hik => ?_
      cases Option.some.inj (hn.symm.trans (hik ▸ hy))
      exact ht
    case edge =>
      rw [Network.length_stepAt hn ht] at hx'
      rw [Network.getElem?_stepAt hn ht] at hx hx'
      obtain ⟨y, hy, rfl⟩ := Option.map_eq_some_iff.mp hx
      obtain ⟨y', hy', rfl⟩ := Option.map_eq_some_iff.mp hx'
      have hknown : y'.upstreamEnded = y.core.ended := hedge k y y' hy hy'
      rw [Node.ended_afterStep, Node.upstreamEnded_afterStep]
      by_cases hik : i = k
      · subst hik
        cases Option.some.inj (hn.symm.trans hy)
        rw [if_pos rfl, if_pos rfl, hknown]
        cases he : n.core.ended with
        | false => exact Bool.false_or _
        | true => rw [eq_of_ended ht he, he, Bool.true_or]
      · have hi := (List.getElem?_eq_some_iff.mp hn).1
        have hk := (List.getElem?_eq_some_iff.mp hy).1
        rw [if_neg hik, if_neg fun hj => hik (succ_mod_injective hi hk hj)]
        exact hknown

/-- Settles O60: each event keeps every machine's part of the invariant and what each knows of its upstream machine. -/
theorem ringEventsKeepRingInvariant : Obligations.RingEventsKeepRingInvariant := by
  unfold Obligations.RingEventsKeepRingInvariant
  refine ⟨Network.inv_build, fun net map e h => ?_⟩
  cases e with
  | step i => exact h.stepAt map i
  | prime i v => exact h.prime i v
  | dropPrimer i => exact h.dropPrimer i
  | dropListener i => exact h.dropListener i

/-! #### What a step of one machine does to the ring -/

/-- Settles O58: the three kinds of places, and what the invariant after the step says of machine `i + 1`. -/
theorem ringStepDeliversDownstream : Obligations.RingStepDeliversDownstream := by
  unfold Obligations.RingStepDeliversDownstream
  intro net map i n d t hlen hinv hn hd ht
  have hi := (List.getElem?_eq_some_iff.mp hn).1
  have hne : (i + 1) % net.length ≠ i := succ_mod_ne_self hlen hi
  have hstepped : (net.stepAt map i)[i]? = some (n.stepped t) := by
    simp [Network.getElem?_stepAt hn ht, hn, Node.afterStep, Node.afterOwnStep, hne]
  have hreceived : (net.stepAt map i)[(i + 1) % net.length]? = some (d.receive t.outQ t.ended) := by
    simp [Network.getElem?_stepAt hn ht, hd, Node.afterStep, Node.afterOwnStep, hne.symm]
  have hother : ∀ k, k ≠ i → k ≠ (i + 1) % net.length → (net.stepAt map i)[k]? = net[k]? := fun k hk hk' => by
    rw [Network.getElem?_stepAt hn ht]
    cases net[k]? <;> simp [Node.afterStep, Node.afterOwnStep, hk.symm, hk'.symm]
  have hafter := hinv.stepAt map i i (n.stepped t) (d.receive t.outQ t.ended) hstepped
    (by rw [Network.length_stepAt hn ht]; exact hreceived)
  obtain ⟨-, hup, hclosed⟩ := hafter
  have hended : (d.receive t.outQ t.ended).upstreamEnded = true ↔ t.status ≠ .running := by
    rw [hup]
    simp [Node.stepped, State.ended]
  have hin : t.inClosed = n.core.inClosed := stepWith_inClosed ht
  have hout : t.outClosed = n.core.outClosed := stepWith_outClosed ht
  refine ⟨_, _, hstepped, hreceived, hother, rfl, rfl, hin, rfl, hout, rfl, rfl, rfl, rfl, rfl, rfl, rfl, hended, ?closed,
    ?sent⟩
  case closed =>
    rw [hclosed, Bool.and_eq_true, hended, Bool.not_eq_true', and_comm]
    rfl
  case sent =>
    intro hc
    obtain ⟨hdrained, hknown, -⟩ := hinv i n d hn hd
    have hsettled : d.Settled := (Network.inv_iff.mp hinv).1 _ d hd
    rw [eq_of_ended ht (hknown ▸ (hsettled.of_inClosed hc).1), hdrained]

/-- Settles O59: a held machine's step changes nothing, and nothing is delivered that was not there. -/
theorem deadlockedNetworkIsStuck : Obligations.DeadlockedNetworkIsStuck := by
  unfold Obligations.DeadlockedNetworkIsStuck
  intro net map i hdead hrest
  cases hn : net[i]? with
  | none => simp only [Network.stepAt, hn]
  | some n =>
    have hheld : n.core.heldWith map = true := List.all_eq_true.mp hdead n (List.mem_of_getElem? hn)
    have hrunning : n.core.ended = false := ended_eq_false_iff.mpr (heldWith_iff.mp hheld).1
    obtain ⟨hdrained, -⟩ := hrest n (List.mem_of_getElem? hn)
    refine List.ext_getElem? fun k => ?_
    rw [Network.getElem?_stepAt hn (stepWith_of_held hheld)]
    cases hy : net[k]? with
    | none => rfl
    | some y =>
      obtain ⟨hempty, hsettled⟩ := hrest y (List.mem_of_getElem? hy)
      have hreceive : y.receive [] false = y := by simpa [Node.receive] using hsettled
      have hstepped : i = k → y.stepped n.core = y := by
        rintro rfl
        cases Option.some.inj (hn.symm.trans hy)
        rw [Node.stepped, ← hdrained]
      rw [Option.map_some, Node.afterStep, Node.afterOwnStep, hdrained, hrunning, ite_eq_right_iff.mpr hstepped, hreceive,
        ite_self]

end Sys2Proof.Machine

/-! ### Program text (30_encoding.md R64; log 29) -/

namespace Sys2Proof.Machine

open Sys2Proof.Claims

/-! #### One integer -/

/-- The character of a decimal digit. -/
def digitChar (d : Fin 10) : Char :=
  Char.ofNat (48 + d.val)

theorem digitOf_digitChar (d : Fin 10) : digitOf (digitChar d) = some d.val := by
  revert d; decide

theorem digitChar_ne_minus (d : Fin 10) : digitChar d ≠ '-' := by
  revert d; decide

theorem digitChar_ne_comma (d : Fin 10) : digitChar d ≠ ',' := by
  revert d; decide

theorem spell_eq (t : Spelling) : spell t = (if t.1 then ['-'] else []) ++ t.2.map digitChar := rfl

theorem natOf_digits : ∀ (ds : List (Fin 10)) (acc : Nat),
    natOf acc (ds.map digitChar) = some (ds.foldl (fun acc d => 10 * acc + d.val) acc)
  | [], _ => rfl
  | d :: ds, acc => by
    rw [List.map_cons, natOf, digitOf_digitChar]
    exact natOf_digits ds (10 * acc + d.val)

/-- A spelling with at least one digit is read as the integer it stands for. -/
theorem integerOf_spell {t : Spelling} (h : t.2 ≠ []) : integerOf (spell t) = some (spelled t) := by
  obtain ⟨neg, ds⟩ := t
  cases ds with
  | nil => exact absurd rfl h
  | cons d ds =>
    have hnat := natOf_digits (d :: ds) 0
    cases neg with
    | true =>
      show (natOf 0 ((d :: ds).map digitChar)).map (fun n => -(n : Int)) = _
      rw [hnat]
      simp [spelled]
    | false =>
      show (if digitChar d = '-' then _ else (natOf 0 ((d :: ds).map digitChar)).map fun n => (n : Int)) = _
      rw [if_neg (digitChar_ne_minus d), hnat]
      simp [spelled]

theorem comma_notMem_spell (t : Spelling) : ',' ∉ spell t := by
  have hdigits : ',' ∉ t.2.map digitChar := fun h => by
    obtain ⟨d, -, hd⟩ := List.mem_map.mp h
    exact digitChar_ne_comma d hd
  rw [spell_eq, List.mem_append]
  rintro (h | h)
  · cases hn : t.1 <;> simp [hn] at h
  · exact hdigits h

/-- The cell of a piece that spells an integer, if it fits one. -/
theorem pieceCell_spell {t : Spelling} (h : t.2 ≠ []) : pieceCell (spell t) = cellOf (spelled t) := by
  rw [pieceCell, integerOf_spell h]

/-! #### Pieces between commas -/

theorem splitCommas_cons {c : Char} (hc : c ≠ ',') {cs piece : List Char} {more : List (List Char)}
    (h : splitCommas cs = piece :: more) : splitCommas (c :: cs) = (c :: piece) :: more := by
  rw [splitCommas, if_neg hc, h]

theorem splitCommas_of_notMem : ∀ {piece : List Char}, ',' ∉ piece → splitCommas piece = [piece]
  | [], _ => rfl
  | c :: cs, h => by
    obtain ⟨hc, hcs⟩ := not_or.mp (mt List.mem_cons.mpr h)
    exact splitCommas_cons (Ne.symm hc) (splitCommas_of_notMem hcs)

theorem splitCommas_append_comma {rest : List Char} : ∀ {piece : List Char}, ',' ∉ piece →
    splitCommas (piece ++ ',' :: rest) = piece :: splitCommas rest
  | [], _ => if_pos rfl
  | c :: cs, h => by
    obtain ⟨hc, hcs⟩ := not_or.mp (mt List.mem_cons.mpr h)
    exact splitCommas_cons (Ne.symm hc) (splitCommas_append_comma hcs)

/-- Pieces without commas, joined by commas, are split into the same pieces. -/
theorem splitCommas_intercalate : ∀ {pieces : List (List Char)}, pieces ≠ [] → (∀ p ∈ pieces, ',' ∉ p) →
    splitCommas ([','].intercalate pieces) = pieces
  | [], h, _ => absurd rfl h
  | [p], _, h => by
    rw [List.intercalate_singleton]
    exact splitCommas_of_notMem (h p List.mem_cons_self)
  | p :: q :: rest, _, h => by
    have ih := splitCommas_intercalate (List.cons_ne_nil q rest) fun r hr => h r (List.mem_cons_of_mem p hr)
    rw [List.intercalate_cons_cons, List.append_assoc, List.singleton_append,
      splitCommas_append_comma (h p List.mem_cons_self), ih]

theorem parseProgram_spell {toks : List Spelling} (h : toks ≠ []) :
    parseProgram ([','].intercalate (toks.map spell)) = piecesCells (toks.map spell) := by
  rw [parseProgram, splitCommas_intercalate (by simpa using h)]
  intro p hp
  obtain ⟨t, -, rfl⟩ := List.mem_map.mp hp
  exact comma_notMem_spell t

/-! #### All the cells -/

theorem cellOf_of_fits {v : Int} (h : -2 ^ 63 ≤ v ∧ v < 2 ^ 63) : cellOf v = some (wrap64 v) :=
  if_pos h

theorem cellOf_of_not_fits {v : Int} (h : v < -2 ^ 63 ∨ 2 ^ 63 ≤ v) : cellOf v = none :=
  if_neg (by omega)

theorem piecesCells_spell_of_fits : ∀ {toks : List Spelling}, (∀ t ∈ toks, t.2 ≠ []) →
    (∀ t ∈ toks, -2 ^ 63 ≤ spelled t ∧ spelled t < 2 ^ 63) →
    piecesCells (toks.map spell) = some (toks.map fun t => wrap64 (spelled t))
  | [], _, _ => rfl
  | t :: toks, hne, hfits => by
    have ih := piecesCells_spell_of_fits (fun u hu => hne u (List.mem_cons_of_mem t hu))
      fun u hu => hfits u (List.mem_cons_of_mem t hu)
    rw [List.map_cons, piecesCells, pieceCell_spell (hne t List.mem_cons_self),
      cellOf_of_fits (hfits t List.mem_cons_self), ih]
    rfl

theorem piecesCells_eq_none : ∀ {pieces : List (List Char)}, (∃ p ∈ pieces, pieceCell p = none) →
    piecesCells pieces = none
  | [], h => by simp at h
  | p :: rest, h => by
    rw [piecesCells]
    obtain hp | hrest := List.exists_mem_cons_iff _ _ _ |>.mp h
    · rw [hp]
    · rw [piecesCells_eq_none hrest]
      cases pieceCell p <;> rfl

/-- Settles O16: the text splits into its spellings, each of which is read as its integer. -/
theorem programTextSpellsItsCells : Obligations.ProgramTextSpellsItsCells := by
  unfold Obligations.ProgramTextSpellsItsCells
  intro toks htoks hne
  rw [parseProgram_spell htoks]
  constructor
  · intro hfits
    refine ⟨_, piecesCells_spell_of_fits hne hfits, ?_⟩
    rw [List.map_map]
    exact List.map_congr_left fun t ht => wrap64_toInt_of_range (hfits t ht).1 (hfits t ht).2
  · rintro ⟨t, ht, hout⟩
    refine piecesCells_eq_none ⟨spell t, List.mem_map_of_mem ht, ?_⟩
    rw [pieceCell_spell (hne t ht), cellOf_of_not_fits hout]

end Sys2Proof.Machine
